-- ==== Sys2Proof/Word.lean ====
section
/-! DEFINITION. The two value types of the block: the 32-bit bus word (00 R4) and the 8-bit buffer entry and
wire byte (20 R40). Every value is unsigned (00 R7). -/

namespace Sys2Proof

/-- A register value, and the data of one host access (00 R4, 20 R37). -/
abbrev Word := BitVec 32

/-- A buffer entry, and a byte on the wire (20 R40, R44). -/
abbrev Byte := BitVec 8

end Sys2Proof
end

