-- ==== Sys2Proof/Config.lean ====
section
/-! DEFINITION. What an implementation of the block fixes: its two parameters (00 R2, R3). They are a record
of plain data that the state carries and no step changes, so that every statement holds for every legal
implementation (log 1). -/

namespace Sys2Proof

/-- The parameters a model takes as arguments (00 section 3). -/
structure Params where
  /-- BUF_BYTES: the capacity in bytes of each of the four buffers (00 R2). -/
  bufBytes : Nat
  /-- BASE: the bus address at which the register window starts (00 R3). -/
  base : Nat
  deriving DecidableEq, Repr

/-- The default of 00 R2 for BUF_BYTES, 64; BASE has no default in the spec, and 0 is a legal value
(DESIGN CHOICE, log 1). -/
def Params.standard : Params := ⟨64, 0⟩

end Sys2Proof
end

