-- ==== Sys2Proof/Syntax.lean ====
section
/-! DEFINITION. The commands: one constructor per row of spec/opcode_table.json (30 R62, R63). The command
word has no operand: its bits 31:4 are ignored (30 R61), and the inputs of a command are registers and
buffers. -/

namespace Sys2Proof

/-- A command, named by the low nibble of the CMD word that selects it (30 R62, R63). -/
inductive Instr where
  /-- ENCODE, nibble 0x1: lenient encode (41 R82). -/
  | encode
  /-- ENCODE.S, nibble 0x9: strict encode (41 R83). -/
  | encodeS
  /-- DECODE, nibble 0x2 (41 R84). -/
  | decode
  /-- EXCHANGE, nibble 0x3: request and response, lenient encode (42 R89). -/
  | exchange
  /-- EXCHANGE.S, nibble 0xB: request and response, strict encode (42 R90). -/
  | exchangeS
  /-- SEND_ONLY, nibble 0x4: send TXRAW, no read-back (42 R91). -/
  | sendOnly
  /-- ILLEGAL.0, a reserved encoding (40 R72). -/
  | illegal0
  /-- ILLEGAL.5, a reserved encoding (40 R72). -/
  | illegal5
  /-- ILLEGAL.6, a reserved encoding (40 R72). -/
  | illegal6
  /-- ILLEGAL.7, a reserved encoding (40 R72). -/
  | illegal7
  /-- ILLEGAL.8, a reserved encoding (40 R72). -/
  | illegal8
  /-- ILLEGAL.A, a reserved encoding: DECODE with S = 1 (40 R72). -/
  | illegalA
  /-- ILLEGAL.C, a reserved encoding: SEND_ONLY with S = 1 (40 R72). -/
  | illegalC
  /-- ILLEGAL.D, a reserved encoding (40 R72). -/
  | illegalD
  /-- ILLEGAL.E, a reserved encoding (40 R72). -/
  | illegalE
  /-- ILLEGAL.F, a reserved encoding (40 R72). -/
  | illegalF
  deriving DecidableEq, Repr

end Sys2Proof
end

