-- ==== Sys2Proof/Decode.lean ====
section
/-! DEFINITION. The command word (30 R61 to R64): its fields, the command map as a table, the decoder (total
on all 2^32 words), the encoder, and the reader of a table word that the host uses. The block fetches no
bytes: a command reaches it as one 32-bit word on the bus, which has no byte order (20 R45). -/

namespace Sys2Proof

/-- CMD.OP, bits 2:0 (30 R61). -/
def cmdOp (w : Word) : BitVec 3 := w.extractLsb' 0 3

/-- CMD.S, bit 3: 1 for a strict encode (30 R61). -/
def cmdStrict (w : Word) : Bool := w.getLsbD 3

/-- The low nibble of the CMD word: all that dispatch reads (40 R73). -/
def cmdNibble (w : Word) : BitVec 4 := w.extractLsb' 0 4

/-- The case analysis of 40 R73 on the four bits `Sooo` of 30 R61, bit 3 first; each reserved nibble (30 R63)
under its own name. -/
def decodeNibble (n : BitVec 4) : Instr :=
  match n.getLsbD 3, n.getLsbD 2, n.getLsbD 1, n.getLsbD 0 with
  | false, false, false, false => .illegal0
  | false, false, false, true => .encode
  | false, false, true, false => .decode
  | false, false, true, true => .exchange
  | false, true, false, false => .sendOnly
  | false, true, false, true => .illegal5
  | false, true, true, false => .illegal6
  | false, true, true, true => .illegal7
  | true, false, false, false => .illegal8
  | true, false, false, true => .encodeS
  | true, false, true, false => .illegalA
  | true, false, true, true => .exchangeS
  | true, true, false, false => .illegalC
  | true, true, false, true => .illegalD
  | true, true, true, false => .illegalE
  | true, true, true, true => .illegalF

/-- Command decode: total, bits 31:4 have no effect (30 R64). -/
def decodeCmd (w : Word) : Instr := decodeNibble (cmdNibble w)

/-- Why a bit string is no command word. -/
inductive DecodeReject where
  /-- It is longer than the one format of 30 R61, or its value does not fit in it. -/
  | notOneCommandWord
  deriving DecidableEq, Repr

/-- The decoder on a bit string of any length: bits above `nbits` are 0, and what does not fit the 32 bits of
30 R61 is rejected by name. -/
def decodeSized (nbits w : Nat) : Except DecodeReject Instr :=
  if nbits ≤ 32 ∧ w < 2 ^ 32 then .ok (decodeCmd (BitVec.ofNat 32 (w % 2 ^ nbits)))
  else .error .notOneCommandWord

/-- The command this decoder reads from a word as spec/opcode_table.json numbers its bits. -/
def decodeTableWord (nbits w : Nat) : Option Instr :=
  match decodeSized nbits w with
  | .ok i => some i
  | .error _ => none

/-- The low nibble of a command's words: the `match` column of 30 R62 and the reserved nibbles of 30 R63. -/
def nibbleOf (i : Instr) : BitVec 4 :=
  match i with
  | .encode => 0x1#4
  | .encodeS => 0x9#4
  | .decode => 0x2#4
  | .exchange => 0x3#4
  | .exchangeS => 0xB#4
  | .sendOnly => 0x4#4
  | .illegal0 => 0x0#4
  | .illegal5 => 0x5#4
  | .illegal6 => 0x6#4
  | .illegal7 => 0x7#4
  | .illegal8 => 0x8#4
  | .illegalA => 0xA#4
  | .illegalC => 0xC#4
  | .illegalD => 0xD#4
  | .illegalE => 0xE#4
  | .illegalF => 0xF#4

/-- A word of a command with any value in its ignored bits 31:4 (30 R61). -/
def encodeWith (ignored : BitVec 28) (i : Instr) : Word := ignored ++ nibbleOf i

/-- The encoder: the word of a command as `CMD <mnemonic>` writes it, ignored bits 0 (30 R65). -/
def encode (i : Instr) : Word := encodeWith 0 i

/-- A row of the command map: a word `w` selects it where `w &&& mask = value` (30 R62). -/
structure CmdRow where
  instr : Instr
  value : Word
  mask : Word
  deriving DecidableEq, Repr

/-- The six rows of 30 R62. -/
def commandRows : List CmdRow :=
  [ ⟨.encode, 0x00000001, 0x0000000F⟩, ⟨.encodeS, 0x00000009, 0x0000000F⟩, ⟨.decode, 0x00000002, 0x0000000F⟩,
    ⟨.exchange, 0x00000003, 0x0000000F⟩, ⟨.exchangeS, 0x0000000B, 0x0000000F⟩, ⟨.sendOnly, 0x00000004, 0x0000000F⟩ ]

/-- The ten reserved low nibbles of 30 R63, each a row of its own as in spec/opcode_table.json. -/
def reservedRows : List CmdRow :=
  [ ⟨.illegal0, 0x00000000, 0x0000000F⟩, ⟨.illegal5, 0x00000005, 0x0000000F⟩, ⟨.illegal6, 0x00000006, 0x0000000F⟩,
    ⟨.illegal7, 0x00000007, 0x0000000F⟩, ⟨.illegal8, 0x00000008, 0x0000000F⟩, ⟨.illegalA, 0x0000000A, 0x0000000F⟩,
    ⟨.illegalC, 0x0000000C, 0x0000000F⟩, ⟨.illegalD, 0x0000000D, 0x0000000F⟩, ⟨.illegalE, 0x0000000E, 0x0000000F⟩,
    ⟨.illegalF, 0x0000000F, 0x0000000F⟩ ]

/-- The sixteen rows of spec/opcode_table.json. -/
def cmdRows : List CmdRow := commandRows ++ reservedRows

/-- The word selects the row (30 R62). -/
def CmdRow.selects (r : CmdRow) (w : Word) : Bool := (w &&& r.mask) == r.value

end Sys2Proof
end

