-- ==== Sys2Proof/Machine/State.lean ====
section
/-! DEFINITION. The state of the block as plain data (10_state.md), the inputs that drive it (20 R37, R48;
42 R87; 70 R120), the reasons a step can stop, and the state after reset. -/

namespace Sys2Proof.Machine

/-- The engine phase (10 R31, R14). The value 11 of STATUS.PHASE is no phase (93 I13, log 16). -/
inductive Phase where
  | idle
  | tx
  | rx
  deriving DecidableEq, Repr

/-- The operation in flight (10 R31). -/
inductive CurOp where
  | exchange
  | sendOnly
  deriving DecidableEq, Repr

/-- The error codes of 60 R102. The codes 9 to 15 are never produced (93 I13, log 16). -/
inductive ErrCode where
  | none
  | fieldOutOfRange
  | frameTooShort
  | channelWriteError
  | channelReadError
  | channelTimeout
  | replyMalformed
  | badLength
  | illegalCommand
  deriving DecidableEq, Repr

/-- The four byte buffers (10 section 7). -/
inductive Buf where
  | txpay
  | txraw
  | rxraw
  | rxpay
  deriving DecidableEq, Repr

/-- The header fields of a frame at their widths (30 R54). -/
structure Header where
  attn : BitVec 4
  ttl : BitVec 2
  dlen : BitVec 3
  pid : BitVec 5
  deriving DecidableEq, Repr

/-- The transmit frame registers TX_ATTN, TX_TTL, TX_DLEN, TX_PID, TX_PLEN, 32 bits each (10 R19 to R23). -/
structure TxFrame where
  attn : Word
  ttl : Word
  dlen : Word
  pid : Word
  plen : Word
  deriving DecidableEq, Repr

/-- The receive frame registers: the header fields at their widths, since their higher bits are reserved and
read 0 (10 R26, log 15), and RX_PLEN (10 R28). -/
structure RxFrame where
  attn : BitVec 4
  ttl : BitVec 2
  dlen : BitVec 3
  pid : BitVec 5
  plen : Word
  deriving DecidableEq, Repr

/-- The size of a host access in bytes: any number, of which only 4 is supported (20 R37, R38; log 19). -/
abbrev AccessSize := Nat

/-- A host bus access at a bus address, the one of its first byte (20 R37, log 19). -/
inductive HostAccess where
  | read (size : AccessSize) (addr : Nat)
  | write (size : AccessSize) (addr : Nat) (data : Word)
  deriving DecidableEq, Repr

/-- The OK responses of 20 R37: read data, or a write acknowledged. -/
inductive BusResponse where
  | readData (w : Word)
  | writeOk
  deriving DecidableEq, Repr

/-- The channel events of 42 R87. -/
inductive ChannelEvent where
  | acceptTx
  | writeFault
  | deliver (b : Byte)
  | readFault
  | timeout
  deriving DecidableEq, Repr

/-- One step of the outside world (20 R48). -/
inductive Input where
  | host (a : HostAccess)
  | channel (e : ChannelEvent)
  | reset
  deriving DecidableEq, Repr

/-- The reasons a step stops with a fault. Both are faults of the host program; the block is unchanged. -/
inductive Fault where
  /-- Raised by an access inside the window that is no aligned 32-bit access: the error response of 20 R37, R39, which a
  model treats as a fault of the host program with no block step (93 I11). Safe (log 4). -/
  | busError
  /-- Raised by an access outside the window: the block does not decode it, it is the platform's concern
  (20 R36). Safe (log 5). -/
  | outsideWindow
  deriving DecidableEq, Repr

/-- The reasons a step is refused. -/
inductive Refusal where
  /-- Raised by exec's arm of an instruction that has no meaning yet; none is left. Safe. -/
  | notModelled (mnemonic : String)
  deriving DecidableEq, Repr

/-- A list of (window offset, byte) cells: the buffer entries that hold a byte other than 0 (log 8). -/
abbrev Memory := List Host.Cell

/-- Everything the spec gives the machine, its parameters, and the three fields of the model's own. -/
structure State where
  /-- BUF_BYTES and BASE (00 R2, R3; log 1). -/
  params : Params
  /-- The engine phase (10 R31). -/
  phase : Phase
  /-- The operation in flight, meaningful while the phase is not IDLE (10 R31). -/
  curop : CurOp
  /-- STATUS.ERR (10 R15). -/
  err : ErrCode
  /-- STATUS.LASTOP (10 R16). -/
  lastop : BitVec 3
  /-- STATUS.DROPPED (10 R17). -/
  dropped : Bool
  /-- TX_ATTN, TX_TTL, TX_DLEN, TX_PID, TX_PLEN (10 R19 to R23). -/
  tx : TxFrame
  /-- RX_ATTN, RX_TTL, RX_DLEN, RX_PID, RX_PLEN (10 R26, R28). -/
  rx : RxFrame
  /-- TXRAW_LEN (10 R24). -/
  txrawLen : Word
  /-- RXRAW_LEN (10 R25). -/
  rxrawLen : Word
  /-- REPLY_SIZE (10 R27). -/
  replySize : Word
  /-- TX_CNT (10 R29). -/
  txCnt : Word
  /-- RX_CNT (10 R30). -/
  rxCnt : Word
  /-- TXPAY, TXRAW, RXRAW and RXPAY (10 R32 to R35). -/
  mem : Memory
  /-- MODEL: the steps of the outside world still to come, oldest first (20 R48, log 2). -/
  inputs : List Input
  /-- MODEL: the response of the last host access answered (20 R37, log 6). -/
  response : Option BusResponse
  /-- MODEL: the bytes the channel has accepted, oldest first (42 R92, log 7). -/
  sent : List Byte
  deriving DecidableEq, Repr

/-- The block after power-on with parameters `p` and the buffer contents `draw`: the reset values of 10
section 8 and 70 R120, the buffers drawn freely (70 R121). `curop` has no reset value (DESIGN CHOICE, log 9). -/
def State.powerOn (p : Params) (draw : Memory) : State where
  params := p
  phase := .idle
  curop := .exchange
  err := .none
  lastop := 0
  dropped := false
  tx := ⟨0, 0, 0, 0, 0⟩
  rx := ⟨0, 0, 0, 0, 0⟩
  txrawLen := 0
  rxrawLen := 0
  replySize := 12
  txCnt := 0
  rxCnt := 0
  mem := draw
  inputs := []
  response := none
  sent := []

/-- The machine right after reset: the standard parameters, nothing listed in the buffers (DESIGN CHOICE,
log 8), nothing scheduled. -/
def State.reset : State := State.powerOn Params.standard []

end Sys2Proof.Machine
end

