-- ==== Sys2Proof/Machine/Operands.lean ====
section
/-! DEFINITION. The operand forms: zero extension (00 R7), the lenient masking of the four transmit fields
(30 R57, 41 R78), the strict range check (41 R79), the packer and unpacker (41 R76, R77), and the wire order
of the header bytes (20 R44, 30 R55). -/

namespace Sys2Proof.Machine

/-- `zext_32(v)` (00 R7). -/
def zext32 {n : Nat} (v : BitVec n) : Word := v.setWidth 32

/-- The header fields a lenient encode takes: the low bits of each transmit register (30 R57, 41 R78). -/
def maskedHeader (f : TxFrame) : Header where
  attn := f.attn.setWidth 4
  ttl := f.ttl.setWidth 2
  dlen := f.dlen.setWidth 3
  pid := f.pid.setWidth 5

/-- Some transmit field exceeds its range (41 R79, 60 R103). -/
def fieldOutOfRange (f : TxFrame) : Bool :=
  decide (f.attn > 15) || decide (f.ttl > 3) || decide (f.dlen > 7) || decide (f.pid > 31)

/-- `Pack`: the 16-bit header word, reserved bits 00 (41 R76, 30 R54). -/
def pack (h : Header) : BitVec 16 := h.attn ++ h.ttl ++ h.dlen ++ h.pid ++ 0#2

/-- Frame byte 0: header bits 15:8, first on the wire (20 R44). -/
def headerByte0 (w : BitVec 16) : Byte := w.extractLsb' 8 8

/-- Frame byte 1: header bits 7:0 (20 R44). -/
def headerByte1 (w : BitVec 16) : Byte := w.extractLsb' 0 8

/-- `Unpack`: the fields of two frame bytes, bits 1:0 of the second ignored (41 R77, 30 R56). -/
def unpack (b0 b1 : Byte) : Header where
  attn := b0.extractLsb' 4 4
  ttl := b0.extractLsb' 2 2
  dlen := b0.extractLsb' 0 2 ++ b1.extractLsb' 7 1
  pid := b1.extractLsb' 2 5

end Sys2Proof.Machine
end

