-- ==== Sys2Proof/Machine/Flags.lean ====
section
/-! DEFINITION. STATUS, the block's flags (10 R13 to R18): the numbers of the error codes (60 R102) and of the
phases (10 R14), and the word a host reads. -/

namespace Sys2Proof.Machine

/-- The 4-bit code of STATUS.ERR (60 R102). -/
def ErrCode.code (e : ErrCode) : BitVec 4 :=
  match e with
  | .none => 0
  | .fieldOutOfRange => 1
  | .frameTooShort => 2
  | .channelWriteError => 3
  | .channelReadError => 4
  | .channelTimeout => 5
  | .replyMalformed => 6
  | .badLength => 7
  | .illegalCommand => 8

/-- STATUS.PHASE (10 R14). -/
def Phase.code (p : Phase) : BitVec 2 :=
  match p with
  | .idle => 0b00
  | .tx => 0b01
  | .rx => 0b10

/-- The OP a running operation was started with, as LASTOP shows it while busy (10 R16, R31). -/
def CurOp.op (c : CurOp) : BitVec 3 :=
  match c with
  | .exchange => 0b011
  | .sendOnly => 0b100

/-- STATUS.BUSY: a command is in progress (10 R13). -/
def State.busy (s : State) : Bool := s.phase != .idle

/-- The STATUS word: DROPPED in bit 16, LASTOP in 14:12, ERR in 11:8, PHASE in 2:1, BUSY in 0, reserved bits 0
(10, STATUS layout). -/
def State.status (s : State) : Word :=
  0#15 ++ BitVec.ofBool s.dropped ++ 0#1 ++ s.lastop ++ s.err.code ++ 0#5 ++ s.phase.code ++ BitVec.ofBool s.busy

end Sys2Proof.Machine
end

