-- ==== Sys2Proof/Machine/Ops.lean ====
section
/-! DEFINITION. The shared operations: memory cells and buffer entries (20 R40, R42), the copy loop of the
encode and decode bodies (41 R80, R81), completion, which stands where other machines take an exception
(60 R100, R101), acceptance (40 R68) and the busy rule (40 R69). -/

namespace Sys2Proof.Machine

/-! ### Memory cells -/

/-- The canonical form: offsets strictly rising, no cell equal to the 0 an unlisted offset reads as (log 8). -/
abbrev Memory.wf (m : Memory) : Prop := m.Pairwise (fun x y => x.1 < y.1) ∧ ∀ c ∈ m, c.2 ≠ 0

/-- What an offset that no cell lists reads as (DESIGN CHOICE for storage that nothing has written, log 8). -/
def Memory.unlisted : Byte := 0

/-- The byte at an offset. -/
def Memory.load (m : Memory) (a : Nat) : Byte :=
  match m with
  | [] => Memory.unlisted
  | (k, b) :: r => if k = a then b else Memory.load r a

/-- A cell in front of a memory, unless it holds what an unlisted offset reads as. -/
def Memory.push (a : Nat) (v : Byte) (m : Memory) : Memory :=
  if v = Memory.unlisted then m else (a, v) :: m

/-- The memory with the byte at one offset replaced, in canonical form. -/
def Memory.store (m : Memory) (a : Nat) (v : Byte) : Memory :=
  match m with
  | [] => Memory.push a v []
  | (k, b) :: r =>
    if k < a then (k, b) :: Memory.store r a v
    else if k = a then Memory.push a v r
    else Memory.push a v ((k, b) :: r)

/-! ### Buffer entries -/

/-- The offset at which a buffer's window starts (20 R41). -/
def Buf.window (b : Buf) : Nat :=
  match b with
  | .txpay => 0x400
  | .txraw => 0x800
  | .rxraw => 0xC00
  | .rxpay => 0x1000

/-- The offset of entry `i`: window base + 4·i (20 R40). -/
def entryOffset (b : Buf) (i : Nat) : Nat := b.window + 4 * i

/-- The byte in entry `i` of a buffer; an entry with no storage reads 0 (20 R42). -/
def loadEntry (p : Params) (b : Buf) (i : Nat) (m : Memory) : Byte :=
  if i < p.bufBytes then m.load (entryOffset b i) else 0

/-- The memory with one byte written to entry `i`; an entry with no storage keeps nothing (20 R42, log 13). -/
def storeEntry (p : Params) (b : Buf) (i : Nat) (v : Byte) (m : Memory) : Memory :=
  if i < p.bufBytes then m.store (entryOffset b i) v else m

/-- `for k in 0 .. n - 1: dst[dstAt + k] <- src[srcAt + k]` (41 R80, R81). -/
def copyEntries (p : Params) (src : Buf) (srcAt : Nat) (dst : Buf) (dstAt : Nat) (n : Nat) (m : Memory) : Memory :=
  match n with
  | 0 => m
  | k + 1 =>
    let m' := copyEntries p src srcAt dst dstAt k m
    storeEntry p dst (dstAt + k) (loadEntry p src (srcAt + k) m') m'

/-- The byte in entry `i` of a buffer of the block. -/
def State.entry (s : State) (b : Buf) (i : Nat) : Byte := loadEntry s.params b i s.mem

/-- The state with the steps still to come replaced by `rest` (log 2). -/
def schedule (rest : List Input) (s : State) : State := { s with inputs := rest }

/-! ### Completion, acceptance, the busy rule -/

/-- `complete(code)`: the one way a command ends (60 R101). ERR takes the code, the engine is idle, and
nothing else changes. -/
def complete (code : ErrCode) (s : State) : State := { s with err := code, phase := .idle }

/-- The effects of acceptance, before any check (40 R68): ERR and DROPPED cleared, LASTOP from the word. -/
def accept (op : BitVec 3) (s : State) : State := { s with err := .none, dropped := false, lastop := op }

/-- A host write while busy is dropped: only DROPPED is set (40 R69). -/
def dropWrite (s : State) : State := { s with dropped := true }

/-- A host write to CMD (40 R67 to R69): accepted when idle, and then the command runs; dropped when busy. -/
def command (op : BitVec 3) (run : State → State) (s : State) : State :=
  if s.phase = .idle then run (accept op s) else dropWrite s

end Sys2Proof.Machine
end

