-- ==== Sys2Proof/Machine/Codec.lean ====
section
/-! DEFINITION. The frame codec (41_codec.md): the shared bodies of encode and decode (R79 to R81), and the
meanings of ENCODE, ENCODE.S and DECODE (R82 to R84). Each completes within the CMD write (40 R70). -/

namespace Sys2Proof.Machine

/-- `EncodeCheck(S)`: the length check first, then the strict field check (41 R79). -/
def encodeCheck (strict : Bool) (s : State) : ErrCode :=
  if s.tx.plen.toNat > s.params.bufBytes - 2 then .badLength
  else if strict && fieldOutOfRange s.tx then .fieldOutOfRange
  else .none

/-- The memory part of `EncodeBody()`: the two header bytes, then the payload behind them (41 R80). -/
def encodeMem (s : State) : Memory :=
  let h := pack (maskedHeader s.tx)
  copyEntries s.params .txpay 0 .txraw 2 s.tx.plen.toNat
    (storeEntry s.params .txraw 1 (headerByte1 h) (storeEntry s.params .txraw 0 (headerByte0 h) s.mem))

/-- `EncodeBody()` (41 R80). -/
def encodeBody (s : State) : State := { s with mem := encodeMem s, txrawLen := 2 + s.tx.plen }

/-- The memory part of `DecodeBody(n)`: all bytes after the first two, whatever the header declares (41 R81). -/
def decodeMem (n : Word) (s : State) : Memory :=
  copyEntries s.params .rxraw 2 .rxpay 0 (n.toNat - 2) s.mem

/-- The receive frame `DecodeBody(n)` leaves (41 R81). -/
def decodedFrame (n : Word) (s : State) : RxFrame :=
  let h := unpack (s.entry .rxraw 0) (s.entry .rxraw 1)
  ⟨h.attn, h.ttl, h.dlen, h.pid, n - 2⟩

/-- `DecodeBody(n)`, called only when 2 ≤ n ≤ BUF_BYTES (41 R81). -/
def decodeBody (n : Word) (s : State) : State := { s with rx := decodedFrame n s, mem := decodeMem n s }

/-- The body of ENCODE and ENCODE.S (41 R82, R83). -/
def runEncode (strict : Bool) (s : State) : State :=
  if encodeCheck strict s = .none then complete .none (encodeBody s) else complete (encodeCheck strict s) s

/-- The body of DECODE (41 R84): the length checks in order, then the decode. -/
def runDecode (s : State) : State :=
  if s.rxrawLen.toNat > s.params.bufBytes then complete .badLength s
  else if s.rxrawLen.toNat < 2 then complete .frameTooShort s
  else complete .none (decodeBody s.rxrawLen s)

/-- ENCODE, lenient (41 R82). -/
def execEncode (s : State) : Host.Outcome State Fault Refusal := .next (command 0b001 (runEncode false) s)

/-- ENCODE.S, strict (41 R83). -/
def execEncodeS (s : State) : Host.Outcome State Fault Refusal := .next (command 0b001 (runEncode true) s)

/-- DECODE (41 R84). -/
def execDecode (s : State) : Host.Outcome State Fault Refusal := .next (command 0b010 runDecode s)

end Sys2Proof.Machine
end

