-- ==== Sys2Proof/Machine/Exchange.lean ====
section
/-! DEFINITION. The commands that use the channel (42_exchange.md): the acceptance steps of EXCHANGE,
EXCHANGE.S and SEND_ONLY (R89 to R91). They go on in Sys2Proof/Machine/Channel.lean. -/

namespace Sys2Proof.Machine

/-- `R[TX_CNT] <- 0; R[RX_CNT] <- 0`, before any check (42 R89, R91; 10 R29, R30). -/
def clearCounts (s : State) : State := { s with txCnt := 0, rxCnt := 0 }

/-- Enter the transmit phase (42 R89, R91). -/
def startTx (op : CurOp) (s : State) : State := { s with curop := op, phase := .tx }

/-- The acceptance step of EXCHANGE and EXCHANGE.S after the counters are cleared (42 R89, R90). -/
def beginExchange (strict : Bool) (s : State) : State :=
  if s.replySize.toNat > s.params.bufBytes then complete .badLength s
  else if encodeCheck strict s = .none then startTx .exchange (encodeBody s)
  else complete (encodeCheck strict s) s

/-- The body of EXCHANGE and EXCHANGE.S (42 R89, R90). -/
def runExchange (strict : Bool) (s : State) : State := beginExchange strict (clearCounts s)

/-- The acceptance step of SEND_ONLY after the counters are cleared (42 R91). -/
def beginSend (s : State) : State :=
  if s.txrawLen.toNat > s.params.bufBytes then complete .badLength s
  else if s.txrawLen = 0 then complete .none s
  else startTx .sendOnly s

/-- The body of SEND_ONLY (42 R91). -/
def runSendOnly (s : State) : State := beginSend (clearCounts s)

/-- EXCHANGE, lenient encode (42 R89). -/
def execExchange (s : State) : Host.Outcome State Fault Refusal := .next (command 0b011 (runExchange false) s)

/-- EXCHANGE.S, strict encode (42 R90). -/
def execExchangeS (s : State) : Host.Outcome State Fault Refusal := .next (command 0b011 (runExchange true) s)

/-- SEND_ONLY (42 R91). -/
def execSendOnly (s : State) : Host.Outcome State Fault Refusal := .next (command 0b100 runSendOnly s)

end Sys2Proof.Machine
end

