-- ==== Sys2Proof/Machine/Illegal.lean ====
section
/-! DEFINITION. The ten reserved command encodings (40 R72, 30 R63): each, when accepted, completes at once
with ILLEGAL_COMMAND, with LASTOP = w[2:0]; nothing else changes. -/

namespace Sys2Proof.Machine

/-- The body of every reserved command (40 R72). -/
def runIllegal (s : State) : State := complete .illegalCommand s

/-- ILLEGAL.0: OP = 000, S = 0 (40 R72). -/
def execIllegal0 (s : State) : Host.Outcome State Fault Refusal := .next (command 0b000 runIllegal s)

/-- ILLEGAL.5: OP = 101, S = 0 (40 R72). -/
def execIllegal5 (s : State) : Host.Outcome State Fault Refusal := .next (command 0b101 runIllegal s)

/-- ILLEGAL.6: OP = 110, S = 0 (40 R72). -/
def execIllegal6 (s : State) : Host.Outcome State Fault Refusal := .next (command 0b110 runIllegal s)

/-- ILLEGAL.7: OP = 111, S = 0 (40 R72). -/
def execIllegal7 (s : State) : Host.Outcome State Fault Refusal := .next (command 0b111 runIllegal s)

/-- ILLEGAL.8: OP = 000, S = 1 (40 R72). -/
def execIllegal8 (s : State) : Host.Outcome State Fault Refusal := .next (command 0b000 runIllegal s)

/-- ILLEGAL.A: OP = 010, S = 1 (40 R72). -/
def execIllegalA (s : State) : Host.Outcome State Fault Refusal := .next (command 0b010 runIllegal s)

/-- ILLEGAL.C: OP = 100, S = 1 (40 R72). -/
def execIllegalC (s : State) : Host.Outcome State Fault Refusal := .next (command 0b100 runIllegal s)

/-- ILLEGAL.D: OP = 101, S = 1 (40 R72). -/
def execIllegalD (s : State) : Host.Outcome State Fault Refusal := .next (command 0b101 runIllegal s)

/-- ILLEGAL.E: OP = 110, S = 1 (40 R72). -/
def execIllegalE (s : State) : Host.Outcome State Fault Refusal := .next (command 0b110 runIllegal s)

/-- ILLEGAL.F: OP = 111, S = 1 (40 R72). -/
def execIllegalF (s : State) : Host.Outcome State Fault Refusal := .next (command 0b111 runIllegal s)

end Sys2Proof.Machine
end

