-- ==== Sys2Proof/Machine/Dispatch.lean ====
section
/-! DEFINITION. Dispatch (40 R73): exec i is the effect of a host write to CMD whose word decodes to i, in any
state, the busy rule included (log 12). One arm per command, each a call of its own meaning. -/

namespace Sys2Proof.Machine

def exec (i : Instr) (s : State) : Host.Outcome State Fault Refusal :=
  match i with
  | .encode => Sys2Proof.Machine.execEncode s
  | .encodeS => Sys2Proof.Machine.execEncodeS s
  | .decode => Sys2Proof.Machine.execDecode s
  | .exchange => Sys2Proof.Machine.execExchange s
  | .exchangeS => Sys2Proof.Machine.execExchangeS s
  | .sendOnly => Sys2Proof.Machine.execSendOnly s
  | .illegal0 => Sys2Proof.Machine.execIllegal0 s
  | .illegal5 => Sys2Proof.Machine.execIllegal5 s
  | .illegal6 => Sys2Proof.Machine.execIllegal6 s
  | .illegal7 => Sys2Proof.Machine.execIllegal7 s
  | .illegal8 => Sys2Proof.Machine.execIllegal8 s
  | .illegalA => Sys2Proof.Machine.execIllegalA s
  | .illegalC => Sys2Proof.Machine.execIllegalC s
  | .illegalD => Sys2Proof.Machine.execIllegalD s
  | .illegalE => Sys2Proof.Machine.execIllegalE s
  | .illegalF => Sys2Proof.Machine.execIllegalF s

end Sys2Proof.Machine
end

