-- ==== Sys2Proof/Machine/Channel.lean ====
section
/-! DEFINITION. The channel port and the engine steps it triggers (42 R87, R92 to R96). An event that is not
enabled in the phase has no effect on the block (42 R87, log 3). -/

namespace Sys2Proof.Machine

/-- `Offer(TXRAW[R[TX_CNT]])`: the byte the block offers to the channel, in phase TX only (42 R87). -/
def State.offered (s : State) : Option Byte :=
  match s.phase with
  | .idle => none
  | .tx => some (s.entry .txraw s.txCnt.toNat)
  | .rx => none

/-- The phase in which an event is enabled (42 R87). -/
def ChannelEvent.enabledIn (e : ChannelEvent) : Phase :=
  match e with
  | .acceptTx => .tx
  | .writeFault => .tx
  | .deliver _ => .rx
  | .readFault => .rx
  | .timeout => .rx

/-- `ReadDone()`: all R[REPLY_SIZE] bytes have arrived (42 R94). -/
def readDone (s : State) : State :=
  if s.replySize.toNat < 2 then complete .replyMalformed { s with rxrawLen := s.replySize }
  else complete .none (decodeBody s.replySize { s with rxrawLen := s.replySize })

/-- The channel takes the offered byte (42 R92, first two lines). -/
def takeByte (s : State) : State :=
  { s with sent := s.sent ++ [s.entry .txraw s.txCnt.toNat], txCnt := s.txCnt + 1 }

/-- After a byte was taken: end the transmit phase when it was the last (42 R92). -/
def afterTx (s : State) : State :=
  if s.txCnt = s.txrawLen then
    match s.curop with
    | .sendOnly => complete .none s
    | .exchange => if s.replySize = 0 then readDone { s with phase := .rx } else { s with phase := .rx }
  else s

/-- The transmit step (42 R92). -/
def txStep (s : State) : State := afterTx (takeByte s)

/-- The block stores a reply byte (42 R93, first two lines). -/
def putByte (b : Byte) (s : State) : State :=
  { s with mem := storeEntry s.params .rxraw s.rxCnt.toNat b s.mem, rxCnt := s.rxCnt + 1 }

/-- After a reply byte: end the read phase when it was the last (42 R93). -/
def afterRx (s : State) : State := if s.rxCnt = s.replySize then readDone s else s

/-- The receive step (42 R93). -/
def rxStep (b : Byte) (s : State) : State := afterRx (putByte b s)

/-- A read failure: the partial reply is not valid (42 R95). -/
def readFailure (code : ErrCode) (s : State) : State := complete code { s with rxrawLen := 0 }

/-- A write failure (42 R96). -/
def writeFailure (s : State) : State := complete .channelWriteError s

/-- The engine step of a channel event; no effect where it is not enabled (42 R87). -/
def channelEvent (e : ChannelEvent) (s : State) : State :=
  match s.phase, e with
  | .idle, .acceptTx => s
  | .idle, .writeFault => s
  | .idle, .deliver _ => s
  | .idle, .readFault => s
  | .idle, .timeout => s
  | .tx, .acceptTx => txStep s
  | .tx, .writeFault => writeFailure s
  | .tx, .deliver _ => s
  | .tx, .readFault => s
  | .tx, .timeout => s
  | .rx, .acceptTx => s
  | .rx, .writeFault => s
  | .rx, .deliver b => rxStep b s
  | .rx, .readFault => readFailure .channelReadError s
  | .rx, .timeout => readFailure .channelTimeout s

end Sys2Proof.Machine
end

