-- ==== Sys2Proof/Machine/Bus.lean ====
section
/-! DEFINITION. The host bus port (20_memory.md): which accesses are valid (R36 to R39), the offset decode
(R41), what a read returns and what a write stores (R40, R42, R43; 10 R11, R12), the busy rule for writes
(40 R69), and the write to CMD that runs a command (40 R67). -/

namespace Sys2Proof.Machine

/-- The size of the register window in bytes (20 R36). -/
def windowBytes : Nat := 0x1400

/-- The registers of the window (10 section 2). -/
inductive Reg where
  | cmd
  | status
  | txAttn
  | txTtl
  | txDlen
  | txPid
  | txPlen
  | txrawLen
  | rxrawLen
  | replySize
  | rxAttn
  | rxTtl
  | rxDlen
  | rxPid
  | rxPlen
  | txCnt
  | rxCnt
  deriving DecidableEq, Repr

/-- The offset of a register (20 R41). -/
def Reg.offset (r : Reg) : Nat :=
  match r with
  | .cmd => 0x000
  | .status => 0x004
  | .txAttn => 0x008
  | .txTtl => 0x00C
  | .txDlen => 0x010
  | .txPid => 0x014
  | .txPlen => 0x018
  | .txrawLen => 0x01C
  | .rxrawLen => 0x020
  | .replySize => 0x024
  | .rxAttn => 0x028
  | .rxTtl => 0x02C
  | .rxDlen => 0x030
  | .rxPid => 0x034
  | .rxPlen => 0x038
  | .txCnt => 0x03C
  | .rxCnt => 0x040

/-- What an aligned offset of the window names. -/
inductive Target where
  | reg (r : Reg)
  | reserved
  | entry (b : Buf) (i : Nat)
  deriving DecidableEq, Repr

/-- The register at an offset, if there is one (20 R41). -/
def regAt (off : Nat) : Option Reg :=
  match off with
  | 0x000 => some .cmd
  | 0x004 => some .status
  | 0x008 => some .txAttn
  | 0x00C => some .txTtl
  | 0x010 => some .txDlen
  | 0x014 => some .txPid
  | 0x018 => some .txPlen
  | 0x01C => some .txrawLen
  | 0x020 => some .rxrawLen
  | 0x024 => some .replySize
  | 0x028 => some .rxAttn
  | 0x02C => some .rxTtl
  | 0x030 => some .rxDlen
  | 0x034 => some .rxPid
  | 0x038 => some .rxPlen
  | 0x03C => some .txCnt
  | 0x040 => some .rxCnt
  | _ => none

/-- The offset decode (20 R41): registers, the reserved offsets up to 0x3FC, the four buffer windows. -/
def targetOf (off : Nat) : Target :=
  if off < 0x400 then
    match regAt off with
    | some r => .reg r
    | none => .reserved
  else if off < 0x800 then .entry .txpay ((off - 0x400) / 4)
  else if off < 0xC00 then .entry .txraw ((off - 0x800) / 4)
  else if off < 0x1000 then .entry .rxraw ((off - 0xC00) / 4)
  else .entry .rxpay ((off - 0x1000) / 4)

/-- What a host read of a register returns (10 R11 to R31): CMD reads 0, the RX fields are zero-extended. -/
def readReg (r : Reg) (s : State) : Word :=
  match r with
  | .cmd => 0
  | .status => s.status
  | .txAttn => s.tx.attn
  | .txTtl => s.tx.ttl
  | .txDlen => s.tx.dlen
  | .txPid => s.tx.pid
  | .txPlen => s.tx.plen
  | .txrawLen => s.txrawLen
  | .rxrawLen => s.rxrawLen
  | .replySize => s.replySize
  | .rxAttn => zext32 s.rx.attn
  | .rxTtl => zext32 s.rx.ttl
  | .rxDlen => zext32 s.rx.dlen
  | .rxPid => zext32 s.rx.pid
  | .rxPlen => s.rx.plen
  | .txCnt => s.txCnt
  | .rxCnt => s.rxCnt

/-- What a host read returns (20 R40 to R42): a reserved offset reads 0, an entry is zero-extended. -/
def readTarget (t : Target) (s : State) : Word :=
  match t with
  | .reg r => readReg r s
  | .reserved => 0
  | .entry b i => zext32 (s.entry b i)

/-- What a host write stores in a register when idle (10 R11): the eight RW registers take all 32 bits, a
write to a read-only register is ignored (20 R42), and CMD holds nothing (10 R12). -/
def writeReg (r : Reg) (v : Word) (s : State) : State :=
  match r with
  | .cmd => s
  | .status => s
  | .txAttn => { s with tx := { s.tx with attn := v } }
  | .txTtl => { s with tx := { s.tx with ttl := v } }
  | .txDlen => { s with tx := { s.tx with dlen := v } }
  | .txPid => { s with tx := { s.tx with pid := v } }
  | .txPlen => { s with tx := { s.tx with plen := v } }
  | .txrawLen => { s with txrawLen := v }
  | .rxrawLen => { s with rxrawLen := v }
  | .replySize => { s with replySize := v }
  | .rxAttn => s
  | .rxTtl => s
  | .rxDlen => s
  | .rxPid => s
  | .rxPlen => s
  | .txCnt => s
  | .rxCnt => s

/-- A host may write the entries of a buffer (10 R32 to R35): RXPAY is read-only. -/
def Buf.hostWritable (b : Buf) : Bool :=
  match b with
  | .txpay => true
  | .txraw => true
  | .rxraw => true
  | .rxpay => false

/-- What a host write stores when idle (20 R40, R42): bits 7:0 into a writable entry, nothing into a reserved
offset, RXPAY or an entry with no storage. -/
def writeTarget (t : Target) (v : Word) (s : State) : State :=
  match t with
  | .reg r => writeReg r v s
  | .reserved => s
  | .entry b i =>
    if b.hostWritable then { s with mem := storeEntry s.params b i (v.extractLsb' 0 8) s.mem } else s

/-- A valid host write (40 R67, R69): to CMD it is the command; to any other target it stores when idle and
is dropped when busy. -/
def hostWrite (t : Target) (v : Word) (s : State) : Host.Outcome State Fault Refusal :=
  if t = .reg .cmd then exec (decodeCmd v) s
  else .next (if s.phase = .idle then writeTarget t v s else dropWrite s)

/-- The offset of a valid access (20 R36 to R39): inside the window, 4 bytes wide, word-aligned. -/
def checkAccess (p : Params) (size : AccessSize) (addr : Nat) : Except Fault Nat :=
  if addr < p.base ∨ p.base + windowBytes ≤ addr then .error .outsideWindow
  else if size ≠ 4 ∨ (addr - p.base) % 4 ≠ 0 then .error .busError
  else .ok (addr - p.base)

/-- The response of a host access, recorded for the host to see (20 R37, log 6). -/
def respond (r : BusResponse) (s : State) : State := { s with response := some r }

/-- One host access (20 R37 to R43). A read changes no state of the block (20 R43). -/
def hostAccess (a : HostAccess) (s : State) : Host.Outcome State Fault Refusal :=
  match a with
  | .read size addr =>
    match checkAccess s.params size addr with
    | .error f => .fault f
    | .ok off => .next (respond (.readData (readTarget (targetOf off) s)) s)
  | .write size addr data =>
    match checkAccess s.params size addr with
    | .error f => .fault f
    | .ok off => hostWrite (targetOf off) data (respond .writeOk s)

end Sys2Proof.Machine
end

