-- ==== Sys2Proof/Machine/Input.lean ====
section
/-! DEFINITION. The three kinds of step (20 R48): a host access, a channel event, a reset. -/

namespace Sys2Proof.Machine

/-- A reset, one atomic step (70 R120). The buffers keep their contents (70 R121), the parameters are wiring,
`curop` has no reset value and keeps what it held (10 R31, log 9), and the model's own fields stand (log 21). -/
def resetBlock (s : State) : State :=
  { s with
    phase := .idle, err := .none, lastop := 0, dropped := false,
    tx := ⟨0, 0, 0, 0, 0⟩, rx := ⟨0, 0, 0, 0, 0⟩,
    txrawLen := 0, rxrawLen := 0, replySize := 12, txCnt := 0, rxCnt := 0 }

/-- The effect of one input on the block (20 R48). -/
def applyInput (i : Input) (s : State) : Host.Outcome State Fault Refusal :=
  match i with
  | .host a => hostAccess a s
  | .channel e => .next (channelEvent e s)
  | .reset => .next (resetBlock s)

/-- The host access that writes a word to CMD (30 R65, `WR CMD`). -/
def cmdWrite (p : Params) (w : Word) : Input := .host (.write 4 (p.base + Reg.cmd.offset) w)

end Sys2Proof.Machine
end

