-- ==== Sys2Proof/Machine/Step.lean ====
section
/-! DEFINITION. One step of the machine: the oldest scheduled input takes effect (20 R48). With nothing
scheduled nothing advances (10 R10), and a busy block stays busy: the hang of 42 R97 is kept (log 2). -/

namespace Sys2Proof.Machine

/-- One atomic step (20 R48). -/
def step (s : State) : Host.Outcome State Fault Refusal :=
  match s.inputs with
  | [] => .next s
  | i :: rest => applyInput i (schedule rest s)

/-- The state whose next step is the host's write of the word to CMD: bits above `nbits` are 0, and the word
is the 32 bits of 30 R61 (log 11). -/
def State.withFetchWord (s : State) (nbits w : Nat) : State :=
  schedule (cmdWrite s.params (BitVec.ofNat 32 (w % 2 ^ nbits)) :: s.inputs) s

end Sys2Proof.Machine
end

