-- ==== Sys2Proof/Machine/Program.lean ====
section
/-! DEFINITION. The host program lines of 30 R65 and R66 and the inputs they stand for. The loop of WAIT is the
host processor's own control flow and no step of the block: one `poll` is one of its reads (log 20). -/

namespace Sys2Proof.Machine

/-- A line of a test program (30 R65, R66). -/
inductive HostLine where
  /-- `WR <reg>, <v>`. -/
  | wr (r : Reg) (v : Word)
  /-- `WR BUF[i], <b>`. -/
  | wrEntry (b : Buf) (i : Nat) (v : Byte)
  /-- `RD <reg>`. -/
  | rd (r : Reg)
  /-- `RD BUF[i]`. -/
  | rdEntry (b : Buf) (i : Nat)
  /-- `CMD <mnemonic>`. -/
  | cmd (i : Instr)
  /-- One read of the loop of `WAIT`. -/
  | poll
  /-- `LOAD TXPAY, [b0, b1, ...]`. -/
  | load (bs : List Byte)
  /-- `ch: <event>`. -/
  | ch (e : ChannelEvent)
  deriving DecidableEq, Repr

/-- A 32-bit write at an offset. -/
def writeAt (p : Params) (off : Nat) (v : Word) : Input := .host (.write 4 (p.base + off) v)

/-- A 32-bit read at an offset. -/
def readAt (p : Params) (off : Nat) : Input := .host (.read 4 (p.base + off))

/-- The writes of `LOAD TXPAY`, from entry `i` on (30 R65). -/
def loadFrom (p : Params) (i : Nat) (bs : List Byte) : List Input :=
  match bs with
  | [] => []
  | b :: r => writeAt p (entryOffset .txpay i) (zext32 b) :: loadFrom p (i + 1) r

/-- The inputs a line stands for (30 R65, R66). -/
def HostLine.expand (p : Params) (l : HostLine) : List Input :=
  match l with
  | .wr r v => [writeAt p r.offset v]
  | .wrEntry b i v => [writeAt p (entryOffset b i) (zext32 v)]
  | .rd r => [readAt p r.offset]
  | .rdEntry b i => [readAt p (entryOffset b i)]
  | .cmd i => [cmdWrite p (encode i)]
  | .poll => [readAt p Reg.status.offset]
  | .load bs => loadFrom p 0 bs
  | .ch e => [.channel e]

/-- `if bit 0 = 1 repeat L`: whether WAIT polls again after reading `w` (30 R65). -/
def waitAgain (w : Word) : Bool := w.getLsbD 0

/-- The inputs of a program, in the order their steps happen (30 R66). -/
def expandProgram (p : Params) (ls : List HostLine) : List Input := ls.flatMap (HostLine.expand p)

end Sys2Proof.Machine
end

