-- ==== Sys2Proof/WellFormed.lean ====
section
/-! DEFINITION. What is well formed: the parameters (00 R2, R3) and the program lines (30 R65). A command has
no operand, and every one of the sixteen constructors is a legal row of the table, so there is no check on
`Instr`: every command is well formed (30 R64). -/

namespace Sys2Proof

/-- The legal parameters: 12 ≤ BUF_BYTES ≤ 256 (00 R2), BASE a multiple of 0x2000 (00 R3). -/
def Params.wellFormed (p : Params) : Bool :=
  decide (12 ≤ p.bufBytes) && decide (p.bufBytes ≤ 256) && decide (p.base % 0x2000 = 0)

/-- A well-formed program line (30 R65): an entry index inside its window of 256 words (20 R41), a write to
the entries of TXPAY, TXRAW or RXRAW only, and a load that fits the window. -/
def Machine.HostLine.wellFormed (l : Machine.HostLine) : Bool :=
  match l with
  | .wr _ _ => true
  | .wrEntry b i _ => b.hostWritable && decide (i < 256)
  | .rd _ => true
  | .rdEntry _ i => decide (i < 256)
  | .cmd _ => true
  | .poll => true
  | .load bs => decide (bs.length ≤ 256)
  | .ch _ => true

end Sys2Proof
end

