-- ==== Sys2Proof/Safety.lean ====
section
/-! DEFINITION. The terms claims are stated in: which offsets hold storage, the invariant of the block, a
valid access, and what the stores of encode, decode and a received byte leave in memory. -/

namespace Sys2Proof.Machine

/-- The offset is that of a buffer entry with storage (20 R40 to R42). -/
def isBacked (p : Params) (a : Nat) : Bool :=
  decide (0x400 ≤ a) && decide (a % 4 = 0) &&
    (match targetOf a with
     | .entry _ i => decide (i < p.bufBytes)
     | .reg _ => false
     | .reserved => false)

/-- The memory is canonical and holds backed entries only. -/
def Memory.legal (p : Params) (m : Memory) : Prop := m.wf ∧ ∀ c ∈ m, isBacked p c.1 = true

/-- The invariant of the block: what the rules say holds between any two steps (41 R75; 10 R15, R16, R28 to
R31; 42 R92, R93). -/
structure State.Inv (s : State) : Prop where
  /-- The parameters are legal (00 R2, R3). -/
  params : s.params.wellFormed = true
  /-- The buffers are in canonical form and lie where there is storage (20 R42). -/
  mem : s.mem.legal s.params
  /-- RX_PLEN is in 0..BUF_BYTES−2 (10 R28). -/
  rxPlen : s.rx.plen.toNat ≤ s.params.bufBytes - 2
  /-- TX_CNT is in 0..BUF_BYTES (10 R29). -/
  txCnt : s.txCnt.toNat ≤ s.params.bufBytes
  /-- RX_CNT is in 0..BUF_BYTES (10 R30). -/
  rxCnt : s.rxCnt.toNat ≤ s.params.bufBytes
  /-- STATUS.ERR reads 0 while busy (10 R15). -/
  busyErr : s.phase ≠ .idle → s.err = .none
  /-- LASTOP names the operation in flight while busy (10 R16). -/
  busyOp : s.phase ≠ .idle → s.lastop = s.curop.op
  /-- The bytes to send fit TXRAW while busy (41 R75). -/
  busyLen : s.phase ≠ .idle → s.txrawLen.toNat ≤ s.params.bufBytes
  /-- The reply of an exchange in flight fits RXRAW (41 R75). -/
  busyReply : s.phase ≠ .idle → s.curop = .exchange → s.replySize.toNat ≤ s.params.bufBytes
  /-- In phase TX there is a byte left to offer, and no reply byte has been taken (42 R92). -/
  txLeft : s.phase = .tx → s.txCnt.toNat < s.txrawLen.toNat ∧ s.rxCnt = 0
  /-- In phase RX an exchange is in flight, the whole frame has been sent, and a reply byte is missing
  (42 R92, R93). -/
  rxLeft : s.phase = .rx → s.curop = .exchange ∧ s.txCnt = s.txrawLen ∧ s.rxCnt.toNat < s.replySize.toNat

/-- A host access that gets an OK response (20 R36 to R38): a whole aligned word inside the window. -/
def HostAccess.valid (p : Params) (a : HostAccess) : Bool :=
  let ok := fun (size : AccessSize) (addr : Nat) =>
    decide (size = 4) && decide (p.base ≤ addr) && decide (addr < p.base + windowBytes) &&
      decide ((addr - p.base) % 4 = 0)
  match a with
  | .read size addr => ok size addr
  | .write size addr _ => ok size addr

/-- A safe run stops at no fault: every host access scheduled is valid. -/
def State.safe (s : State) : Bool :=
  s.inputs.all fun i =>
    match i with
    | .host a => a.valid s.params
    | .channel _ => true
    | .reset => true

/-- Byte `k` of the frame a command encodes: the two header bytes, then the payload verbatim (20 R44, 41 R80). -/
def State.frameByte (s : State) (k : Nat) : Byte :=
  if k = 0 then headerByte0 (pack (maskedHeader s.tx))
  else if k = 1 then headerByte1 (pack (maskedHeader s.tx))
  else s.entry .txpay (k - 2)

/-- The transmit fields are in range (41 R79, R85): attn ≤ 15, ttl ≤ 3, data_length ≤ 7, packet_id ≤ 31. -/
def State.txInRange (s : State) : Prop :=
  s.tx.attn.toNat ≤ 15 ∧ s.tx.ttl.toNat ≤ 3 ∧ s.tx.dlen.toNat ≤ 7 ∧ s.tx.pid.toNat ≤ 31

/-- `m` is the memory of `s` with the frame of `s` in TXRAW[0 .. TX_PLEN+1], and every other byte as it was
(41 R80). -/
def State.frameStored (s : State) (m : Memory) : Prop :=
  (∀ k < 2 + s.tx.plen.toNat, m.load (entryOffset .txraw k) = s.frameByte k) ∧
    ∀ a, (∀ k < 2 + s.tx.plen.toNat, a ≠ entryOffset .txraw k) → m.load a = s.mem.load a

/-- `m'` is `m` with bytes 2 .. n−1 of RXRAW in RXPAY[0 .. n−3], and every other byte as it was (41 R81). -/
def payloadStored (p : Params) (n : Nat) (m m' : Memory) : Prop :=
  (∀ k < n - 2, m'.load (entryOffset .rxpay k) = loadEntry p .rxraw (2 + k) m) ∧
    ∀ a, (∀ k < n - 2, a ≠ entryOffset .rxpay k) → m'.load a = m.load a

/-- `m'` is `m` with the byte `b` in entry `i` of a buffer, and every other byte as it was (20 R40). -/
def byteStored (buf : Buf) (i : Nat) (b : Byte) (m m' : Memory) : Prop :=
  m'.load (entryOffset buf i) = b ∧ ∀ a, a ≠ entryOffset buf i → m'.load a = m.load a

/-- The RX registers a decode of `n` bytes with header bytes `b0`, `b1` leaves (41 R81). -/
def rxFrameOf (b0 b1 : Byte) (n : Word) : RxFrame :=
  ⟨(unpack b0 b1).attn, (unpack b0 b1).ttl, (unpack b0 b1).dlen, (unpack b0 b1).pid, n - 2⟩

end Sys2Proof.Machine
end

