-- ==== Sys2Proof/Certificates/Slice0/Obligations.lean ====
section
/-! DEFINITION. The statements about the block, for the provers. They hold for every legal BUF_BYTES and BASE
and every content of the buffers: both stand in the state (log 1, log 8). -/

open Sys2Proof Sys2Proof.Machine

/-! ### The command word -/

/-- 30 R61 to R64: every word of every command, whatever its ignored bits, decodes to that command, also when
read as a word of the opcode table, and keeps its ignored bits. -/
def Obligations.DecodeOfEncodeIsTheCommand : Prop :=
  ∀ (i : Instr) (hi : BitVec 28),
    decodeCmd (encodeWith hi i) = i ∧ decodeTableWord 32 (encodeWith hi i).toNat = some i ∧
      (encodeWith hi i).extractLsb' 4 28 = hi

/-- 30 R61 to R64: every 32-bit word is the encoding of the command it decodes to, with its own bits 31:4. -/
def Obligations.EncodeOfDecodeIsTheWord : Prop :=
  ∀ w : Word, encodeWith (w.extractLsb' 4 28) (decodeCmd w) = w

/-- 30 R62, R63: a word selects exactly one of the six rows of the command map, and decodes to its command, or
none of them, and then its low nibble is one of the ten reserved ones and it decodes to that nibble's row. -/
def Obligations.WordSelectsOneRowOrIsReserved : Prop :=
  ∀ w : Word,
    (∃ r ∈ commandRows, r.selects w = true ∧ decodeCmd w = r.instr ∧
        ∀ r' ∈ commandRows, r'.selects w = true → r' = r) ∨
      ((∀ r ∈ commandRows, r.selects w = false) ∧
        w &&& 0xF#32 ∈ [0x0#32, 0x8#32, 0x5#32, 0xD#32, 0x6#32, 0xE#32, 0x7#32, 0xF#32, 0xA#32, 0xC#32] ∧
        ∃ r ∈ reservedRows, r.selects w = true ∧ decodeCmd w = r.instr)

/-- 30 R64: command decode is total, and bits 31:4 never change the outcome, neither of the decode nor of a
write to CMD in any state. -/
def Obligations.IgnoredBitsNeverChangeTheOutcome : Prop :=
  ∀ w : Word, (∃ r ∈ cmdRows, r.selects w = true ∧ decodeCmd w = r.instr) ∧ decodeCmd w = decodeCmd (w &&& 0xF#32) ∧
    ∀ s : State, hostWrite (.reg .cmd) w s = hostWrite (.reg .cmd) (w &&& 0xF#32) s

/-- Words written out from 30 R62, R63 and vectors C9, C10: a sanity check of the decoder. -/
def Obligations.SpecWordsDecodeAsWritten : Prop :=
  decodeCmd 0x00000001 = .encode ∧ decodeCmd 0x00000009 = .encodeS ∧ decodeCmd 0x00000002 = .decode ∧
    decodeCmd 0x00000003 = .exchange ∧ decodeCmd 0x0000000B = .exchangeS ∧ decodeCmd 0x00000004 = .sendOnly ∧
    decodeCmd 0x0000000A = .illegalA ∧ decodeCmd 0xFFFFFFF1 = .encode ∧ decodeCmd 0x00000010 = .illegal0

/-! ### The step and the busy rule -/

/-- 40 R67, R73: the step that takes a host write to CMD is exec of the decoded command, once the access is
taken off the schedule and answered OK (the schedule and the response are the model's own fields, log 2, log 6);
and so is the step of a table word placed as the next command. -/
def Obligations.StepRunsTheDecodedCommand : Prop :=
  (∀ (s : State) (w : Word) (rest : List Input), s.inputs = cmdWrite s.params w :: rest →
    step s = exec (decodeCmd w) { s with inputs := rest, response := some .writeOk }) ∧
  ∀ (s : State) (nbits w : Nat) (i : Instr), decodeTableWord nbits w = some i →
    step (s.withFetchWord nbits w) = exec i { s with response := some .writeOk }

/-- 10 R10 and the model's choice of log 2: with nothing scheduled a step changes nothing, in any phase. -/
def Obligations.NothingScheduledChangesNothing : Prop :=
  ∀ s : State, s.inputs = [] → step s = .next s

/-- 40 R68: the three acceptance effects, for every word: LASTOP is w[2:0], DROPPED is 0, ERR is 0 while the
command goes on, and the outcome does not depend on what ERR, DROPPED and LASTOP were. -/
def Obligations.AcceptanceEffectsOfEveryCommand : Prop :=
  ∀ (w : Word) (s : State), s.phase = .idle →
    ∃ t, exec (decodeCmd w) s = .next t ∧ t.lastop = w.extractLsb' 0 3 ∧ t.dropped = false ∧
      (t.phase ≠ .idle → t.err = .none) ∧
      exec (decodeCmd w) { s with err := .none, dropped := false, lastop := w.extractLsb' 0 3 } = .next t

/-- 40 R67, R69: a command written while busy is not accepted; only DROPPED is set. -/
def Obligations.BusyBlockTurnsEveryCommandAway : Prop :=
  ∀ (i : Instr) (s : State), s.phase ≠ .idle → exec i s = .next { s with dropped := true }

/-- 40 R69: while busy every valid host write is dropped, whatever its offset; host reads are still served. -/
def Obligations.BusyBlockDropsEveryWrite : Prop :=
  ∀ (s : State) (addr : Nat) (rest : List Input), s.phase ≠ .idle →
    (∀ v : Word, HostAccess.valid s.params (.write 4 addr v) = true →
      s.inputs = .host (.write 4 addr v) :: rest →
      step s = .next { s with inputs := rest, response := some .writeOk, dropped := true }) ∧
    (HostAccess.valid s.params (.read 4 addr) = true → s.inputs = .host (.read 4 addr) :: rest →
      step s = .next { s with
        inputs := rest, response := some (.readData (readTarget (targetOf (addr - s.params.base)) s)) })

/-- 10 R17: DROPPED is set by a host write taken while busy, cleared by a command accepted and by reset, and no
other event changes it. -/
def Obligations.DroppedFlagChangesOnlyByRule : Prop :=
  ∀ (s t : State) (i : Input) (rest : List Input), s.inputs = i :: rest → step s = .next t →
    t.dropped =
      match i with
      | .host (.write _ addr _) =>
        if s.phase ≠ .idle then true else if addr = s.params.base + Reg.cmd.offset then false else s.dropped
      | .host (.read _ _) => s.dropped
      | .channel _ => s.dropped
      | .reset => false

/-! ### The host bus -/

/-- 20 R37 to R39: inside the window an access of any size gets the error response exactly when its size is not 4 bytes
or its offset is misaligned; the model answers it with a fault and no state (log 4). Every other access takes one step
and gets an OK response: data for a read, an acknowledgement for a write. -/
def Obligations.AccessOtherThanAnAlignedWordIsABusError : Prop :=
  ∀ (s : State) (size : AccessSize) (addr : Nat) (rest : List Input),
    s.params.base ≤ addr → addr < s.params.base + 0x1400 →
    (∀ a : HostAccess, (a = .read size addr ∨ ∃ v, a = .write size addr v) → s.inputs = .host a :: rest →
      (step s = .fault .busError ↔ size ≠ 4 ∨ (addr - s.params.base) % 4 ≠ 0)) ∧
    (size = 4 → (addr - s.params.base) % 4 = 0 →
      (s.inputs = .host (.read size addr) :: rest →
        ∃ t d, step s = .next t ∧ t.response = some (.readData d) ∧ t.inputs = rest) ∧
      ∀ v, s.inputs = .host (.write size addr v) :: rest →
        ∃ t, step s = .next t ∧ t.response = some .writeOk ∧ t.inputs = rest)

/-- 20 R36: an access outside the window is not decoded by the block; the model's choice is a fault (log 5). -/
def Obligations.AccessOutsideTheWindowIsNotDecoded : Prop :=
  ∀ (s : State) (size : AccessSize) (addr : Nat) (rest : List Input) (a : HostAccess),
    (a = .read size addr ∨ ∃ v, a = .write size addr v) → s.inputs = .host a :: rest →
    (addr < s.params.base ∨ s.params.base + 0x1400 ≤ addr) → step s = .fault .outsideWindow

/-- 20 R37, R38: every valid access, every channel event and every reset answers a next state, so a safe
schedule runs to its end; a step that stops, stops for an access that is not valid, and none is refused. -/
def Obligations.SafeSchedulesNeverStop : Prop :=
  (∀ (n : Nat) (s : State), s.safe = true → ∃ t : State, Sys2Proof.core.run n s = .next t ∧ t.safe = true) ∧
  (∀ (s : State) (f : Fault), step s = .fault f →
    ∃ a rest, s.inputs = .host a :: rest ∧ a.valid s.params = false) ∧
  ∀ (s : State) (r : Refusal), step s ≠ .refused r

/-- 20 R41: what stands at each of the 17 register offsets, written out; the offsets from 0x044 to 0x3FC are reserved; and
entry `i` of a buffer stands at window base + 4·i. `Reg.offset`, the offsets program lines use, is the same map. -/
def Obligations.OffsetDecodeFollowsTheMap : Prop :=
  (targetOf 0x000 = .reg .cmd ∧ targetOf 0x004 = .reg .status ∧ targetOf 0x008 = .reg .txAttn ∧
    targetOf 0x00C = .reg .txTtl ∧ targetOf 0x010 = .reg .txDlen ∧ targetOf 0x014 = .reg .txPid ∧
    targetOf 0x018 = .reg .txPlen ∧ targetOf 0x01C = .reg .txrawLen ∧ targetOf 0x020 = .reg .rxrawLen ∧
    targetOf 0x024 = .reg .replySize ∧ targetOf 0x028 = .reg .rxAttn ∧ targetOf 0x02C = .reg .rxTtl ∧
    targetOf 0x030 = .reg .rxDlen ∧ targetOf 0x034 = .reg .rxPid ∧ targetOf 0x038 = .reg .rxPlen ∧
    targetOf 0x03C = .reg .txCnt ∧ targetOf 0x040 = .reg .rxCnt) ∧
  (∀ r : Reg, targetOf r.offset = .reg r) ∧
  (∀ off, 0x44 ≤ off → off < 0x400 → targetOf off = .reserved) ∧
  ∀ i < 256, targetOf (0x400 + 4 * i) = .entry .txpay i ∧ targetOf (0x800 + 4 * i) = .entry .txraw i ∧
    targetOf (0xC00 + 4 * i) = .entry .rxraw i ∧ targetOf (0x1000 + 4 * i) = .entry .rxpay i

/-- 20 R43, R37: in every phase a valid host read, whatever is scheduled after it, is answered with the value of the
target its offset names and changes no state of the block; and where a second read of the same offset comes next, it
returns the same value. The response is the model's own field (log 6). And the value of each register (10 R12, R19 to
R30; STATUS is StatusWordLayout's): the RX header fields zero-extended, every other register as it stands. -/
def Obligations.HostReadsHaveNoSideEffect : Prop :=
  (∀ (s : State) (addr : Nat) (rest : List Input),
    HostAccess.valid s.params (.read 4 addr) = true → s.inputs = .host (.read 4 addr) :: rest →
    let d : Word := readTarget (targetOf (addr - s.params.base)) s
    step s = .next { s with inputs := rest, response := some (.readData d) } ∧
      ∀ rest', rest = .host (.read 4 addr) :: rest' →
        step { s with inputs := rest, response := some (.readData d) } =
          .next { s with inputs := rest', response := some (.readData d) }) ∧
  ∀ s : State,
    readTarget (.reg .cmd) s = 0 ∧ readTarget (.reg .txAttn) s = s.tx.attn ∧ readTarget (.reg .txTtl) s = s.tx.ttl ∧
    readTarget (.reg .txDlen) s = s.tx.dlen ∧ readTarget (.reg .txPid) s = s.tx.pid ∧
    readTarget (.reg .txPlen) s = s.tx.plen ∧ readTarget (.reg .txrawLen) s = s.txrawLen ∧
    readTarget (.reg .rxrawLen) s = s.rxrawLen ∧ readTarget (.reg .replySize) s = s.replySize ∧
    (readTarget (.reg .rxAttn) s).toNat = s.rx.attn.toNat ∧ (readTarget (.reg .rxTtl) s).toNat = s.rx.ttl.toNat ∧
    (readTarget (.reg .rxDlen) s).toNat = s.rx.dlen.toNat ∧ (readTarget (.reg .rxPid) s).toNat = s.rx.pid.toNat ∧
    readTarget (.reg .rxPlen) s = s.rx.plen ∧ readTarget (.reg .txCnt) s = s.txCnt ∧
    readTarget (.reg .rxCnt) s = s.rxCnt

/-- 10 R11: when idle, a write to one of the eight RW registers stores all 32 bits, reads back unchanged, and
changes no other register, no buffer byte and no engine state. -/
def Obligations.ReadWriteRegistersStoreAllBits : Prop :=
  ∀ (s : State) (r : Reg) (v : Word) (rest : List Input), s.phase = .idle →
    r ∈ [Reg.txAttn, .txTtl, .txDlen, .txPid, .txPlen, .txrawLen, .rxrawLen, .replySize] →
    s.inputs = writeAt s.params r.offset v :: rest →
    ∃ t, step s = .next t ∧ readReg r t = v ∧ (∀ r', r' ≠ r → readReg r' t = readReg r' s) ∧
      t.mem = s.mem ∧ t.phase = s.phase ∧ t.curop = s.curop ∧ t.params = s.params ∧ t.inputs = rest ∧ t.sent = s.sent

/-- 20 R40: a host read of an entry returns its byte zero-extended; a write to a writable entry stores data[7:0],
ignores data[31:8], and changes no other byte and nothing else. -/
def Obligations.EntryAccessUsesBitsSevenToZero : Prop :=
  ∀ (s : State) (b : Buf) (i : Nat), s.Inv → i < s.params.bufBytes →
    readTarget (targetOf (b.window + 4 * i)) s = (s.mem.load (entryOffset b i)).setWidth 32 ∧
    ∀ (v : Word) (rest : List Input), s.phase = .idle → b.hostWritable = true →
      s.inputs = writeAt s.params (b.window + 4 * i) v :: rest →
      ∃ m, step s = .next { s with inputs := rest, response := some .writeOk, mem := m } ∧
        byteStored b i (v.extractLsb' 0 8) s.mem m

/-- 20 R42: reserved offsets and entries with no storage read 0; writes to them, to a read-only register and to
RXPAY are ignored when idle, and dropped with DROPPED set while busy. -/
def Obligations.WritesWithoutStorageAreIgnored : Prop :=
  ∀ (s : State) (off : Nat), off % 4 = 0 → off < 0x1400 →
    ((0x44 ≤ off ∧ off < 0x400) ∨
      (∃ b i, off = entryOffset b i ∧ i < 256 ∧ (s.params.bufBytes ≤ i ∨ b = .rxpay)) ∨
      off ∈ [0x004, 0x028, 0x02C, 0x030, 0x034, 0x038, 0x03C, 0x040]) →
    (∀ (v : Word) (rest : List Input), s.inputs = writeAt s.params off v :: rest →
      step s = .next { s with
        inputs := rest, response := some .writeOk, dropped := if s.phase = .idle then s.dropped else true }) ∧
    ((0x44 ≤ off ∧ off < 0x400) ∨ (∃ b i, off = entryOffset b i ∧ i < 256 ∧ s.params.bufBytes ≤ i) →
      readTarget (targetOf off) s = 0)

/-- 10 R12 to R18, 60 R102: CMD reads 0; BUSY is bit 0 and reads 1 exactly when the phase is not IDLE, PHASE is
bits 2:1 and never 11, ERR bits 11:8 with the code of R102, LASTOP bits 14:12, DROPPED bit 16, the rest 0; STATUS is 0
after reset. -/
def Obligations.StatusWordLayout : Prop :=
  (∀ s : State, readReg .cmd s = 0 ∧
    (readReg .status s).getLsbD 0 = decide (s.phase ≠ .idle) ∧
    (readReg .status s).extractLsb' 1 2 = (match s.phase with | .idle => 0b00#2 | .tx => 0b01#2 | .rx => 0b10#2) ∧
    (readReg .status s).extractLsb' 1 2 ≠ 0b11#2 ∧
    (readReg .status s).extractLsb' 3 5 = 0 ∧
    (readReg .status s).extractLsb' 8 4 =
      (match s.err with
        | .none => 0#4 | .fieldOutOfRange => 1#4 | .frameTooShort => 2#4 | .channelWriteError => 3#4
        | .channelReadError => 4#4 | .channelTimeout => 5#4 | .replyMalformed => 6#4 | .badLength => 7#4
        | .illegalCommand => 8#4) ∧ ((readReg .status s).extractLsb' 8 4).toNat ≤ 8 ∧
    (readReg .status s).extractLsb' 12 3 = s.lastop ∧
    (readReg .status s).getLsbD 15 = false ∧
    (readReg .status s).getLsbD 16 = s.dropped ∧
    (readReg .status s).extractLsb' 17 15 = 0) ∧
  readReg .status State.reset = 0

/-- 30 R65: `LOAD TXPAY, [b0, b1, ...]` run on an idle block puts the bytes into TXPAY[0], TXPAY[1], ... and
changes no other byte and nothing else of the block. -/
def Obligations.LoadFillsTransmitPayload : Prop :=
  ∀ (s : State) (bs : List Byte), s.Inv → s.phase = .idle → bs.length ≤ s.params.bufBytes →
    s.inputs = HostLine.expand s.params (.load bs) →
    ∃ m r, Sys2Proof.core.run bs.length s = .next { s with inputs := [], response := r, mem := m } ∧
      (∀ k (h : k < bs.length), m.load (entryOffset .txpay k) = bs[k]) ∧
      ∀ a, (∀ k < bs.length, a ≠ entryOffset .txpay k) → m.load a = s.mem.load a

/-! ### The codec -/

/-- 41 R76: `Pack` is the sum of the shifted fields, its low two bits are 00, and it is injective; with the rule's
example. -/
def Obligations.PackLayoutAndInjectivity : Prop :=
  (∀ h : Header,
    (pack h).toNat = h.attn.toNat * 2 ^ 12 + h.ttl.toNat * 2 ^ 10 + h.dlen.toNat * 2 ^ 7 + h.pid.toNat * 2 ^ 2 ∧
    (pack h).extractLsb' 0 2 = 0) ∧
  (∀ h h' : Header, pack h = pack h' → h = h') ∧
  pack ⟨0xF, 2, 4, 4⟩ = 0xFA10

/-- 41 R77, 30 R56: the fields `Unpack` takes from two bytes, as numbers; `Unpack` inverts `Pack`; and `Pack` of an
unpacked pair is the pair with the reserved bits cleared. -/
def Obligations.UnpackInvertsPack : Prop :=
  (∀ b0 b1 : Byte,
    (unpack b0 b1).attn.toNat = b0.toNat / 16 ∧ (unpack b0 b1).ttl.toNat = b0.toNat / 4 % 4 ∧
    (unpack b0 b1).dlen.toNat = b0.toNat % 4 * 2 + b1.toNat / 128 ∧ (unpack b0 b1).pid.toNat = b1.toNat / 4 % 32 ∧
    pack (unpack b0 b1) = b0 ++ b1.extractLsb' 2 6 ++ 0b00#2) ∧
  ∀ h : Header, unpack (headerByte0 (pack h)) (headerByte1 (pack h)) = h

/-- 41 R78: the fields a lenient encode inserts, read back from the two header bytes it leaves in TXRAW, are the
registers modulo 2 to the width of the field. -/
def Obligations.LenientEncodeMasksEachField : Prop :=
  ∀ s : State, s.Inv → s.phase = .idle → s.tx.plen.toNat ≤ s.params.bufBytes - 2 →
    ∃ t, exec .encode s = .next t ∧ t.err = .none ∧
      (let h := unpack (t.entry .txraw 0) (t.entry .txraw 1)
       h.attn.toNat = s.tx.attn.toNat % 2 ^ 4 ∧ h.ttl.toNat = s.tx.ttl.toNat % 2 ^ 2 ∧
         h.dlen.toNat = s.tx.dlen.toNat % 2 ^ 3 ∧ h.pid.toNat = s.tx.pid.toNat % 2 ^ 5)

/-- 41 R82, R80: ENCODE on an idle block. With a legal TX_PLEN the frame stands in TXRAW, TXRAW_LEN is
2 + TX_PLEN and ERR is NONE; else ERR is BAD_LENGTH. Nothing but that and LASTOP, DROPPED changes. -/
def Obligations.EncodeWritesTheFrame : Prop :=
  ∀ s : State, s.Inv → s.phase = .idle →
    (s.tx.plen.toNat ≤ s.params.bufBytes - 2 →
      ∃ (m : Memory) (len : Word),
        exec .encode s = .next { s with
          err := .none, lastop := 0b001, dropped := false, txrawLen := len, mem := m } ∧
        len.toNat = 2 + s.tx.plen.toNat ∧ s.frameStored m) ∧
    (s.params.bufBytes - 2 < s.tx.plen.toNat →
      exec .encode s = .next { s with err := .badLength, lastop := 0b001, dropped := false })

/-- 41 R83: ENCODE.S on an idle block: BAD_LENGTH first, then FIELD_OUT_OF_RANGE when a field exceeds its range,
else what ENCODE does. -/
def Obligations.StrictEncodeChecksThenWrites : Prop :=
  ∀ s : State, s.Inv → s.phase = .idle →
    (s.tx.plen.toNat ≤ s.params.bufBytes - 2 → s.txInRange → exec .encodeS s = exec .encode s ∧
      ∃ (m : Memory) (len : Word),
        exec .encodeS s = .next { s with
          err := .none, lastop := 0b001, dropped := false, txrawLen := len, mem := m } ∧
        len.toNat = 2 + s.tx.plen.toNat ∧ s.frameStored m) ∧
    (s.tx.plen.toNat ≤ s.params.bufBytes - 2 →
      (15 < s.tx.attn.toNat ∨ 3 < s.tx.ttl.toNat ∨ 7 < s.tx.dlen.toNat ∨ 31 < s.tx.pid.toNat) →
      exec .encodeS s = .next { s with err := .fieldOutOfRange, lastop := 0b001, dropped := false }) ∧
    (s.params.bufBytes - 2 < s.tx.plen.toNat →
      exec .encodeS s = .next { s with err := .badLength, lastop := 0b001, dropped := false })

/-- 41 R83, 42 R90: when every field is in range the strict commands do what the lenient ones do. -/
def Obligations.StrictEqualsLenientInRange : Prop :=
  ∀ s : State, s.txInRange → exec .encodeS s = exec .encode s ∧ exec .exchangeS s = exec .exchange s

/-- 41 R84, R81: DECODE on an idle block: BAD_LENGTH above BUF_BYTES, FRAME_TOO_SHORT below 2, else the fields of
RXRAW[0..1] in the RX registers, all further bytes in RXPAY, RX_PLEN = n − 2. -/
def Obligations.DecodeFillsTheReceiveFrame : Prop :=
  ∀ s : State, s.Inv → s.phase = .idle →
    (2 ≤ s.rxrawLen.toNat → s.rxrawLen.toNat ≤ s.params.bufBytes →
      ∃ m, exec .decode s = .next { s with
          err := .none, lastop := 0b010, dropped := false, mem := m,
          rx := rxFrameOf (s.entry .rxraw 0) (s.entry .rxraw 1) s.rxrawLen } ∧
        payloadStored s.params s.rxrawLen.toNat s.mem m) ∧
    (s.rxrawLen.toNat < 2 →
      exec .decode s = .next { s with err := .frameTooShort, lastop := 0b010, dropped := false }) ∧
    (s.params.bufBytes < s.rxrawLen.toNat →
      exec .decode s = .next { s with err := .badLength, lastop := 0b010, dropped := false })

/-- 41 R85: encode, copy TXRAW and its length to RXRAW, decode: the RX frame is the TX frame when the fields are in
range, and with ENCODE its fields are the masked ones in any case. `u` is any idle state after the copy. -/
def Obligations.EncodeCopyDecodeRoundTrip : Prop :=
  ∀ (s : State) (i : Instr), s.Inv → s.phase = .idle → s.tx.plen.toNat ≤ s.params.bufBytes - 2 →
    (i = .encode ∨ (i = .encodeS ∧ s.txInRange)) →
    ∃ t, exec i s = .next t ∧
      ∀ u : State, u.Inv → u.phase = .idle → u.params = t.params → u.rxrawLen = t.txrawLen →
        (∀ k < t.txrawLen.toNat, u.entry .rxraw k = t.entry .txraw k) →
        ∃ v, exec .decode u = .next v ∧ v.err = .none ∧
          (s.txInRange → readReg .rxAttn v = s.tx.attn ∧ readReg .rxTtl v = s.tx.ttl ∧
            readReg .rxDlen v = s.tx.dlen ∧ readReg .rxPid v = s.tx.pid) ∧
          (readReg .rxAttn v).toNat = s.tx.attn.toNat % 16 ∧ (readReg .rxTtl v).toNat = s.tx.ttl.toNat % 4 ∧
          (readReg .rxDlen v).toNat = s.tx.dlen.toNat % 8 ∧ (readReg .rxPid v).toNat = s.tx.pid.toNat % 32 ∧
          readReg .rxPlen v = s.tx.plen ∧
          ∀ k < s.tx.plen.toNat, v.entry .rxpay k = s.entry .txpay k

/-- 41 R86: ENCODE and ENCODE.S are functions of the TX registers and TXPAY[0..TX_PLEN−1], and DECODE of RXRAW_LEN
and RXRAW[0..RXRAW_LEN−1]: two idle blocks that agree on them get the same error code and, on success, the same
bytes and registers. -/
def Obligations.CodecReadsOnlyItsOperands : Prop :=
  ∀ s s' : State, s.Inv → s'.Inv → s.phase = .idle → s'.phase = .idle → s.params = s'.params →
    (∀ i, (i = .encode ∨ i = .encodeS) → s.tx = s'.tx →
      (∀ k < s.tx.plen.toNat, s.entry .txpay k = s'.entry .txpay k) →
      ∃ t t', exec i s = .next t ∧ exec i s' = .next t' ∧ t.err = t'.err ∧
        (t.err = .none → t.txrawLen = t'.txrawLen ∧
          ∀ k < t.txrawLen.toNat, t.entry .txraw k = t'.entry .txraw k)) ∧
    (s.rxrawLen = s'.rxrawLen → (∀ k < s.rxrawLen.toNat, s.entry .rxraw k = s'.entry .rxraw k) →
      ∃ t t', exec .decode s = .next t ∧ exec .decode s' = .next t' ∧ t.err = t'.err ∧
        (t.err = .none → t.rx = t'.rx ∧ ∀ k < t.rx.plen.toNat, t.entry .rxpay k = t'.entry .rxpay k))

/-! ### Commands that use the channel, reserved commands -/

/-- 42 R89: the acceptance step of EXCHANGE on an idle block: the counters are cleared; with legal lengths the frame
is encoded and phase TX entered; else BAD_LENGTH and nothing else. -/
def Obligations.ExchangeEntersTransmitPhase : Prop :=
  ∀ s : State, s.Inv → s.phase = .idle →
    (s.replySize.toNat ≤ s.params.bufBytes → s.tx.plen.toNat ≤ s.params.bufBytes - 2 →
      ∃ (m : Memory) (len : Word),
        exec .exchange s = .next { s with
          err := .none, lastop := 0b011, dropped := false, txCnt := 0, rxCnt := 0, txrawLen := len, mem := m,
          curop := .exchange, phase := .tx } ∧
        len.toNat = 2 + s.tx.plen.toNat ∧ s.frameStored m) ∧
    (s.params.bufBytes < s.replySize.toNat ∨ s.params.bufBytes - 2 < s.tx.plen.toNat →
      exec .exchange s = .next { s with
        err := .badLength, lastop := 0b011, dropped := false, txCnt := 0, rxCnt := 0 })

/-- 42 R90: EXCHANGE.S is EXCHANGE with the strict check: FIELD_OUT_OF_RANGE at acceptance, after BAD_LENGTH. -/
def Obligations.StrictExchangeChecksThenTransmits : Prop :=
  ∀ s : State, s.Inv → s.phase = .idle →
    (s.replySize.toNat ≤ s.params.bufBytes → s.tx.plen.toNat ≤ s.params.bufBytes - 2 → s.txInRange →
      ∃ (m : Memory) (len : Word),
        exec .exchangeS s = .next { s with
          err := .none, lastop := 0b011, dropped := false, txCnt := 0, rxCnt := 0, txrawLen := len, mem := m,
          curop := .exchange, phase := .tx } ∧
        len.toNat = 2 + s.tx.plen.toNat ∧ s.frameStored m) ∧
    (s.replySize.toNat ≤ s.params.bufBytes → s.tx.plen.toNat ≤ s.params.bufBytes - 2 → ¬ s.txInRange →
      exec .exchangeS s = .next { s with
        err := .fieldOutOfRange, lastop := 0b011, dropped := false, txCnt := 0, rxCnt := 0 }) ∧
    (s.params.bufBytes < s.replySize.toNat ∨ s.params.bufBytes - 2 < s.tx.plen.toNat →
      exec .exchangeS s = .next { s with
        err := .badLength, lastop := 0b011, dropped := false, txCnt := 0, rxCnt := 0 })

/-- 42 R91: the acceptance step of SEND_ONLY on an idle block. -/
def Obligations.SendOnlyEntersTransmitPhase : Prop :=
  ∀ s : State, s.phase = .idle →
    (0 < s.txrawLen.toNat → s.txrawLen.toNat ≤ s.params.bufBytes →
      exec .sendOnly s = .next { s with
        err := .none, lastop := 0b100, dropped := false, txCnt := 0, rxCnt := 0, curop := .sendOnly, phase := .tx }) ∧
    (s.txrawLen = 0 →
      exec .sendOnly s = .next { s with
        err := .none, lastop := 0b100, dropped := false, txCnt := 0, rxCnt := 0 }) ∧
    (s.params.bufBytes < s.txrawLen.toNat →
      exec .sendOnly s = .next { s with
        err := .badLength, lastop := 0b100, dropped := false, txCnt := 0, rxCnt := 0 })

/-- 40 R72: every reserved command on an idle block completes with ILLEGAL_COMMAND; LASTOP is its OP, DROPPED is 0,
and nothing else changes. Said of the ten commands and of every word with a reserved low nibble; with the rule's
example. -/
def Obligations.ReservedCommandsReportIllegal : Prop :=
  (∀ (s : State) (i : Instr) (op : BitVec 3), s.phase = .idle →
    (i, op) ∈ [(Instr.illegal0, 0b000#3), (.illegal5, 0b101#3), (.illegal6, 0b110#3), (.illegal7, 0b111#3),
      (.illegal8, 0b000#3), (.illegalA, 0b010#3), (.illegalC, 0b100#3), (.illegalD, 0b101#3), (.illegalE, 0b110#3),
      (.illegalF, 0b111#3)] →
    exec i s = .next { s with err := .illegalCommand, lastop := op, dropped := false }) ∧
  (∀ (s : State) (w : Word), s.phase = .idle →
    w &&& 0xF#32 ∈ [0x0#32, 0x5#32, 0x6#32, 0x7#32, 0x8#32, 0xA#32, 0xC#32, 0xD#32, 0xE#32, 0xF#32] →
    exec (decodeCmd w) s = .next { s with
      err := .illegalCommand, lastop := w.extractLsb' 0 3, dropped := false }) ∧
  ∀ s t : State, s.phase = .idle → exec (decodeCmd 0x00000000) s = .next t → readReg .status t = 0x00000800

/-- 40 R70: which commands complete within the step of their CMD write, so that no read sees BUSY = 1 for them: the
encodes, DECODE and the reserved commands always; the others when they fail their acceptance checks, or when there is
nothing to send. Else the block enters phase TX. -/
def Obligations.ImmediateCommandsCompleteInTheWrite : Prop :=
  ∀ (s : State) (i : Instr), s.phase = .idle →
    ∃ t, exec i s = .next t ∧ (t.phase = .idle ∨ t.phase = .tx) ∧
      (i ∉ [Instr.exchange, .exchangeS, .sendOnly] → t.phase = .idle) ∧
      (i = .exchange → (t.phase = .idle ↔
        s.params.bufBytes < s.replySize.toNat ∨ s.params.bufBytes - 2 < s.tx.plen.toNat)) ∧
      (i = .exchangeS → (t.phase = .idle ↔
        s.params.bufBytes < s.replySize.toNat ∨ s.params.bufBytes - 2 < s.tx.plen.toNat ∨ ¬ s.txInRange)) ∧
      (i = .sendOnly → (t.phase = .idle ↔ s.params.bufBytes < s.txrawLen.toNat ∨ s.txrawLen = 0))

/-! ### The engine steps -/

/-- 42 R92: the transmit step. The channel takes the offered byte TXRAW[TX_CNT] and TX_CNT counts it; after the last
byte SEND_ONLY completes, and an exchange enters phase RX, or with REPLY_SIZE = 0 ends with REPLY_MALFORMED
(R94). Nothing else changes. -/
def Obligations.TransmitStepSendsTheOfferedByte : Prop :=
  ∀ (s : State) (rest : List Input), s.Inv → s.phase = .tx → s.inputs = .channel .acceptTx :: rest →
    let b := s.mem.load (entryOffset .txraw s.txCnt.toNat)
    s.offered = some b ∧
    ∃ cnt : Word, cnt.toNat = s.txCnt.toNat + 1 ∧
      (cnt ≠ s.txrawLen → step s = .next { s with inputs := rest, sent := s.sent ++ [b], txCnt := cnt }) ∧
      (cnt = s.txrawLen → s.curop = .sendOnly →
        step s = .next { s with inputs := rest, sent := s.sent ++ [b], txCnt := cnt, err := .none, phase := .idle }) ∧
      (cnt = s.txrawLen → s.curop = .exchange → s.replySize ≠ 0 →
        step s = .next { s with inputs := rest, sent := s.sent ++ [b], txCnt := cnt, phase := .rx }) ∧
      (cnt = s.txrawLen → s.curop = .exchange → s.replySize = 0 →
        step s = .next { s with
          inputs := rest, sent := s.sent ++ [b], txCnt := cnt, rxrawLen := 0, err := .replyMalformed, phase := .idle })

/-- 42 R93, R94: the receive step. The byte goes to RXRAW[RX_CNT] and RX_CNT counts it; after the last byte RXRAW_LEN
is REPLY_SIZE, and the reply is decoded, or is REPLY_MALFORMED when shorter than 2. Nothing else changes. -/
def Obligations.ReceiveStepStoresTheByte : Prop :=
  ∀ (s : State) (b : Byte) (rest : List Input), s.Inv → s.phase = .rx → s.inputs = .channel (.deliver b) :: rest →
    ∃ (m : Memory) (cnt : Word), byteStored .rxraw s.rxCnt.toNat b s.mem m ∧ cnt.toNat = s.rxCnt.toNat + 1 ∧
      (cnt ≠ s.replySize → step s = .next { s with inputs := rest, mem := m, rxCnt := cnt }) ∧
      (cnt = s.replySize → s.replySize.toNat < 2 →
        step s = .next { s with
          inputs := rest, mem := m, rxCnt := cnt, rxrawLen := s.replySize, err := .replyMalformed, phase := .idle }) ∧
      (cnt = s.replySize → 2 ≤ s.replySize.toNat →
        ∃ m', payloadStored s.params s.replySize.toNat m m' ∧
          step s = .next { s with
            inputs := rest, mem := m', rxCnt := cnt, rxrawLen := s.replySize, err := .none, phase := .idle,
            rx := rxFrameOf (m.load (entryOffset .rxraw 0)) (m.load (entryOffset .rxraw 1)) s.replySize })

/-- 42 R95: a read failure in phase RX sets RXRAW_LEN to 0 and completes with its code; RX_CNT, the received bytes,
the RX registers and RXPAY are unchanged. -/
def Obligations.ReadFailuresInvalidateTheReply : Prop :=
  ∀ (s : State) (rest : List Input), s.phase = .rx →
    (s.inputs = .channel .readFault :: rest →
      step s = .next { s with inputs := rest, rxrawLen := 0, err := .channelReadError, phase := .idle }) ∧
    (s.inputs = .channel .timeout :: rest →
      step s = .next { s with inputs := rest, rxrawLen := 0, err := .channelTimeout, phase := .idle })

/-- 42 R96: a write failure in phase TX completes with CHANNEL_WRITE_ERROR and changes nothing else: TX_CNT keeps the
number of bytes accepted, RX_CNT is 0 and stays it. -/
def Obligations.WriteFailureEndsTheTransmission : Prop :=
  ∀ (s : State) (rest : List Input), s.Inv → s.phase = .tx → s.inputs = .channel .writeFault :: rest →
    s.rxCnt = 0 ∧
      step s = .next { s with inputs := rest, err := .channelWriteError, phase := .idle }

/-- 42 R87 and the model's reading of log 3: a channel event in a phase that does not enable it has no effect on the
block. -/
def Obligations.EventsNotEnabledHaveNoEffect : Prop :=
  ∀ (s : State) (e : ChannelEvent) (rest : List Input), s.inputs = .channel e :: rest →
    ((s.phase = .idle ∨ s.phase = .rx) ∧ (e = .acceptTx ∨ e = .writeFault) ∨
      (s.phase = .idle ∨ s.phase = .tx) ∧ (e = .readFault ∨ e = .timeout ∨ ∃ b, e = .deliver b)) →
    step s = .next { s with inputs := rest }

/-- 42 R97: while busy, host accesses alone never move the engine: however many valid ones are run, the phase, the
operation, the counters, the registers and the buffers stay, and the block stays busy. -/
def Obligations.ABusyBlockWithoutEventsStaysBusy : Prop :=
  ∀ (n : Nat) (s : State), s.phase ≠ .idle → s.safe = true → (∀ i ∈ s.inputs, ∃ a, i = .host a) →
    ∃ rest r d, Sys2Proof.core.run n s = .next { s with inputs := rest, response := r, dropped := d }

/-- 20 R51: the inputs of a command in flight cannot change under it: until a reset, a step taken while busy leaves the
TX registers, TXPAY, TXRAW, TXRAW_LEN and REPLY_SIZE as they are. -/
def Obligations.CommandInputsAreStableWhileBusy : Prop :=
  ∀ s t : State, s.Inv → s.phase ≠ .idle → (∀ rest, s.inputs ≠ .reset :: rest) → step s = .next t →
    t.tx = s.tx ∧ t.txrawLen = s.txrawLen ∧ t.replySize = s.replySize ∧
      ∀ i, t.entry .txpay i = s.entry .txpay i ∧ t.entry .txraw i = s.entry .txraw i

/-- 10 R29, R30: TX_CNT and RX_CNT are 0 after a reset and after an accepted EXCHANGE, EXCHANGE.S or SEND_ONLY, count one
byte at each accept in phase TX and each delivery in phase RX, change at no other step, and stay in 0..BUF_BYTES. -/
def Obligations.TransferCountersChangeOnlyByRule : Prop :=
  ∀ (s t : State) (i : Input) (rest : List Input), s.Inv → s.inputs = i :: rest → step s = .next t →
    let clears := i = .reset ∨ (s.phase = .idle ∧ ∃ w, i = cmdWrite s.params w ∧
      (decodeCmd w = .exchange ∨ decodeCmd w = .exchangeS ∨ decodeCmd w = .sendOnly))
    let counts := s.phase = .tx ∧ i = .channel .acceptTx
    let takes := s.phase = .rx ∧ ∃ b, i = .channel (.deliver b)
    (clears → t.txCnt = 0 ∧ t.rxCnt = 0) ∧
    (counts → t.txCnt.toNat = s.txCnt.toNat + 1) ∧ (takes → t.rxCnt.toNat = s.rxCnt.toNat + 1) ∧
    (¬ clears → (¬ counts → t.txCnt = s.txCnt) ∧ (¬ takes → t.rxCnt = s.rxCnt)) ∧
    t.txCnt.toNat ≤ s.params.bufBytes ∧ t.rxCnt.toNat ≤ s.params.bufBytes

/-- 10 R26, R28: the receive registers change only at a successful decode, by an accepted DECODE or by the last reply
byte of an exchange, both with ERR = NONE, or at a reset. -/
def Obligations.ReceiveFrameChangesOnlyAtADecode : Prop :=
  ∀ s t : State, step s = .next t → t.rx ≠ s.rx →
    (∃ rest, s.inputs = .reset :: rest) ∨
    (t.err = .none ∧ t.phase = .idle ∧
      ((s.phase = .idle ∧ ∃ w rest, decodeCmd w = .decode ∧ s.inputs = cmdWrite s.params w :: rest) ∨
        (s.phase = .rx ∧ ∃ b rest, s.inputs = .channel (.deliver b) :: rest)))

/-- 10 R15, 60 R113: an idle block keeps ERR until the next accepted command or a reset. -/
def Obligations.ErrorCodeIsKeptUntilTheNextCommand : Prop :=
  ∀ s t : State, s.phase = .idle → step s = .next t → t.err ≠ s.err →
    ∃ rest, s.inputs = .reset :: rest ∨ ∃ w, s.inputs = cmdWrite s.params w :: rest

/-- 42 R87, R92: bytes leave the block only as the offered byte at an accept in phase TX. -/
def Obligations.OnlyOfferedBytesLeaveTheBlock : Prop :=
  ∀ s t : State, step s = .next t → t.sent ≠ s.sent →
    s.phase = .tx ∧ (∃ rest, s.inputs = .channel .acceptTx :: rest) ∧
      ∃ b, s.offered = some b ∧ t.sent = s.sent ++ [b]

/-! ### Reset and the invariant -/

/-- 70 R120, R121: a reset, in any state: the values of R120, the buffers unchanged. That it keeps `curop`, to which 10 R31
gives no reset value, is the model's choice (log 9); that it leaves the parameters and the model's own fields is log
21's. -/
def Obligations.ResetSetsEveryRegister : Prop :=
  ∀ (s : State) (rest : List Input), s.inputs = .reset :: rest →
    step s = .next { s with
      inputs := rest, phase := .idle, err := .none, lastop := 0, dropped := false,
      tx := ⟨0, 0, 0, 0, 0⟩, txrawLen := 0, rxrawLen := 0, replySize := 12, rx := ⟨0, 0, 0, 0, 0⟩,
      txCnt := 0, rxCnt := 0 }

/-- 10 section 8: after power-on, with any parameters and any buffer contents, every register reads its reset value. -/
def Obligations.PowerOnRegisterValues : Prop :=
  ∀ (p : Params) (draw : Memory),
    (State.powerOn p draw).phase = .idle ∧ readReg .replySize (State.powerOn p draw) = 12 ∧
    (∀ r, r ≠ .replySize → readReg r (State.powerOn p draw) = 0) ∧
    ∀ b i, (State.powerOn p draw).entry b i = loadEntry p b i draw

/-- The invariant holds after power-on with any legal parameters and any drawn buffer contents, and at
State.reset (whose parameters and buffer contents are the model's choice, log 1, log 8). -/
def Obligations.InvariantHoldsAfterPowerOn : Prop :=
  State.reset.Inv ∧
  ∀ (p : Params) (draw : Memory), p.wellFormed = true → draw.legal p → (State.powerOn p draw).Inv

/-- 41 R75 with 10 R15, R16, R28 to R30: every step keeps the invariant, from every state that has it: the lengths and
counters stay in range, every engine index stays below BUF_BYTES, the memory stays canonical, ERR is 0 and
LASTOP names the operation while busy; and no step changes the parameters. -/
def Obligations.EveryStepKeepsTheInvariant : Prop :=
  ∀ s t : State, s.Inv → step s = .next t → t.Inv ∧ t.params = s.params

/-- 41 R75: every buffer index the engine uses is less than BUF_BYTES and names an entry with storage. Of the transmit and
receive steps: the entry offered in phase TX, the entry the next reply byte goes to in phase RX. Of an encode, once
its check has passed: TXRAW[0 .. TX_PLEN+1] and TXPAY[0 .. TX_PLEN−1]. Of the two decodes, by a DECODE that ends with
ERR = NONE and by the end of a reply of n ≥ 2 bytes: RXRAW[0 .. n−1] and RXPAY[0 .. n−3], with n ≤ BUF_BYTES. -/
def Obligations.EngineIndicesStayInBounds : Prop :=
  ∀ s : State, s.Inv →
    let used := fun (b : Buf) (i : Nat) => i < s.params.bufBytes ∧ isBacked s.params (entryOffset b i) = true
    (s.phase = .tx → used .txraw s.txCnt.toNat) ∧
    (s.phase = .rx → used .rxraw s.rxCnt.toNat) ∧
    (∀ strict, encodeCheck strict s = .none →
      (∀ k < 2 + s.tx.plen.toNat, used .txraw k) ∧ ∀ k < s.tx.plen.toNat, used .txpay k) ∧
    (∀ t, s.phase = .idle → exec .decode s = .next t → t.err = .none →
      2 ≤ s.rxrawLen.toNat ∧ s.rxrawLen.toNat ≤ s.params.bufBytes ∧
      (∀ k < s.rxrawLen.toNat, used .rxraw k) ∧ ∀ k < s.rxrawLen.toNat - 2, used .rxpay k) ∧
    (s.phase = .rx → 2 ≤ s.replySize.toNat →
      s.replySize.toNat ≤ s.params.bufBytes ∧
      (∀ k < s.replySize.toNat, used .rxraw k) ∧ ∀ k < s.replySize.toNat - 2, used .rxpay k)

/-! ### Whole commands -/

/-- 42 R91, R92: a whole SEND_ONLY: after its CMD write and one accept per byte the channel has taken
TXRAW[0 .. TXRAW_LEN−1] in order, ERR is NONE, and nothing on the receive side has changed. -/
def Obligations.SendOnlySendsTheRawBytes : Prop :=
  ∀ (s : State) (w : Word) (n : Nat), s.Inv → s.phase = .idle → decodeCmd w = .sendOnly → s.txrawLen.toNat = n →
    0 < n → n ≤ s.params.bufBytes →
    s.inputs = cmdWrite s.params w :: List.replicate n (.channel .acceptTx) →
    Sys2Proof.core.run (1 + n) s = .next { s with
      inputs := [], response := some .writeOk, err := .none, lastop := 0b100, dropped := false, phase := .idle,
      curop := .sendOnly, txCnt := s.txrawLen, rxCnt := 0,
      sent := s.sent ++ (List.range n).map (fun k => s.mem.load (entryOffset .txraw k)) }

/-- 42 R89 to R94: a whole exchange with a reply of REPLY_SIZE ≥ 2 bytes: the channel takes the frame, header first, and
delivers the reply; the block ends idle with ERR = NONE, the reply in RXRAW, and the reply's fields and payload
in the receive frame. -/
def Obligations.ExchangeCompletesWithTheReply : Prop :=
  ∀ (s : State) (w : Word) (reply : List Byte), s.Inv → s.phase = .idle →
    (decodeCmd w = .exchange ∨ (decodeCmd w = .exchangeS ∧ s.txInRange)) →
    s.tx.plen.toNat ≤ s.params.bufBytes - 2 → 2 ≤ s.replySize.toNat → s.replySize.toNat ≤ s.params.bufBytes →
    reply.length = s.replySize.toNat →
    s.inputs = cmdWrite s.params w ::
      (List.replicate (2 + s.tx.plen.toNat) (.channel .acceptTx) ++ reply.map (fun b => .channel (.deliver b))) →
    ∃ t : State, Sys2Proof.core.run (1 + (2 + s.tx.plen.toNat) + reply.length) s = .next t ∧
      t.inputs = [] ∧ t.phase = .idle ∧ t.err = .none ∧ t.lastop = 0b011 ∧ t.dropped = false ∧
      t.sent = s.sent ++ (List.range (2 + s.tx.plen.toNat)).map s.frameByte ∧
      t.txCnt = t.txrawLen ∧ t.txrawLen.toNat = 2 + s.tx.plen.toNat ∧
      t.rxCnt = s.replySize ∧ t.rxrawLen = s.replySize ∧ t.replySize = s.replySize ∧ t.tx = s.tx ∧
      (∀ k (h : k < reply.length), t.entry .rxraw k = reply[k]) ∧
      (∀ b0 b1 pay, reply = b0 :: b1 :: pay → t.rx = rxFrameOf b0 b1 s.replySize ∧
        ∀ k (h : k < pay.length), t.entry .rxpay k = pay[k])
end

