-- ==== Sys2Proof/Laws/State.lean ====
section
/-! SUPPORT. What each named update of the state leaves in each field: one lemma per field per update, true by
unfolding, so that no later proof unfolds a record update. -/

namespace Sys2Proof.Machine

variable (s : State)

/-! ### complete -/

@[simp] theorem complete_params (c : ErrCode) : (complete c s).params = s.params := rfl
@[simp] theorem complete_phase (c : ErrCode) : (complete c s).phase = .idle := rfl
@[simp] theorem complete_curop (c : ErrCode) : (complete c s).curop = s.curop := rfl
@[simp] theorem complete_err (c : ErrCode) : (complete c s).err = c := rfl
@[simp] theorem complete_lastop (c : ErrCode) : (complete c s).lastop = s.lastop := rfl
@[simp] theorem complete_dropped (c : ErrCode) : (complete c s).dropped = s.dropped := rfl
@[simp] theorem complete_tx (c : ErrCode) : (complete c s).tx = s.tx := rfl
@[simp] theorem complete_rx (c : ErrCode) : (complete c s).rx = s.rx := rfl
@[simp] theorem complete_txrawLen (c : ErrCode) : (complete c s).txrawLen = s.txrawLen := rfl
@[simp] theorem complete_rxrawLen (c : ErrCode) : (complete c s).rxrawLen = s.rxrawLen := rfl
@[simp] theorem complete_replySize (c : ErrCode) : (complete c s).replySize = s.replySize := rfl
@[simp] theorem complete_txCnt (c : ErrCode) : (complete c s).txCnt = s.txCnt := rfl
@[simp] theorem complete_rxCnt (c : ErrCode) : (complete c s).rxCnt = s.rxCnt := rfl
@[simp] theorem complete_mem (c : ErrCode) : (complete c s).mem = s.mem := rfl
@[simp] theorem complete_inputs (c : ErrCode) : (complete c s).inputs = s.inputs := rfl
@[simp] theorem complete_response (c : ErrCode) : (complete c s).response = s.response := rfl
@[simp] theorem complete_sent (c : ErrCode) : (complete c s).sent = s.sent := rfl

/-! ### accept -/

@[simp] theorem accept_params (o : BitVec 3) : (accept o s).params = s.params := rfl
@[simp] theorem accept_phase (o : BitVec 3) : (accept o s).phase = s.phase := rfl
@[simp] theorem accept_curop (o : BitVec 3) : (accept o s).curop = s.curop := rfl
@[simp] theorem accept_err (o : BitVec 3) : (accept o s).err = .none := rfl
@[simp] theorem accept_lastop (o : BitVec 3) : (accept o s).lastop = o := rfl
@[simp] theorem accept_dropped (o : BitVec 3) : (accept o s).dropped = false := rfl
@[simp] theorem accept_tx (o : BitVec 3) : (accept o s).tx = s.tx := rfl
@[simp] theorem accept_rx (o : BitVec 3) : (accept o s).rx = s.rx := rfl
@[simp] theorem accept_txrawLen (o : BitVec 3) : (accept o s).txrawLen = s.txrawLen := rfl
@[simp] theorem accept_rxrawLen (o : BitVec 3) : (accept o s).rxrawLen = s.rxrawLen := rfl
@[simp] theorem accept_replySize (o : BitVec 3) : (accept o s).replySize = s.replySize := rfl
@[simp] theorem accept_txCnt (o : BitVec 3) : (accept o s).txCnt = s.txCnt := rfl
@[simp] theorem accept_rxCnt (o : BitVec 3) : (accept o s).rxCnt = s.rxCnt := rfl
@[simp] theorem accept_mem (o : BitVec 3) : (accept o s).mem = s.mem := rfl
@[simp] theorem accept_inputs (o : BitVec 3) : (accept o s).inputs = s.inputs := rfl
@[simp] theorem accept_response (o : BitVec 3) : (accept o s).response = s.response := rfl
@[simp] theorem accept_sent (o : BitVec 3) : (accept o s).sent = s.sent := rfl

/-! ### dropWrite -/

@[simp] theorem dropWrite_params : (dropWrite s).params = s.params := rfl
@[simp] theorem dropWrite_phase : (dropWrite s).phase = s.phase := rfl
@[simp] theorem dropWrite_curop : (dropWrite s).curop = s.curop := rfl
@[simp] theorem dropWrite_err : (dropWrite s).err = s.err := rfl
@[simp] theorem dropWrite_lastop : (dropWrite s).lastop = s.lastop := rfl
@[simp] theorem dropWrite_dropped : (dropWrite s).dropped = true := rfl
@[simp] theorem dropWrite_tx : (dropWrite s).tx = s.tx := rfl
@[simp] theorem dropWrite_rx : (dropWrite s).rx = s.rx := rfl
@[simp] theorem dropWrite_txrawLen : (dropWrite s).txrawLen = s.txrawLen := rfl
@[simp] theorem dropWrite_rxrawLen : (dropWrite s).rxrawLen = s.rxrawLen := rfl
@[simp] theorem dropWrite_replySize : (dropWrite s).replySize = s.replySize := rfl
@[simp] theorem dropWrite_txCnt : (dropWrite s).txCnt = s.txCnt := rfl
@[simp] theorem dropWrite_rxCnt : (dropWrite s).rxCnt = s.rxCnt := rfl
@[simp] theorem dropWrite_mem : (dropWrite s).mem = s.mem := rfl
@[simp] theorem dropWrite_inputs : (dropWrite s).inputs = s.inputs := rfl
@[simp] theorem dropWrite_response : (dropWrite s).response = s.response := rfl
@[simp] theorem dropWrite_sent : (dropWrite s).sent = s.sent := rfl

/-! ### clearCounts -/

@[simp] theorem clearCounts_params : (clearCounts s).params = s.params := rfl
@[simp] theorem clearCounts_phase : (clearCounts s).phase = s.phase := rfl
@[simp] theorem clearCounts_curop : (clearCounts s).curop = s.curop := rfl
@[simp] theorem clearCounts_err : (clearCounts s).err = s.err := rfl
@[simp] theorem clearCounts_lastop : (clearCounts s).lastop = s.lastop := rfl
@[simp] theorem clearCounts_dropped : (clearCounts s).dropped = s.dropped := rfl
@[simp] theorem clearCounts_tx : (clearCounts s).tx = s.tx := rfl
@[simp] theorem clearCounts_rx : (clearCounts s).rx = s.rx := rfl
@[simp] theorem clearCounts_txrawLen : (clearCounts s).txrawLen = s.txrawLen := rfl
@[simp] theorem clearCounts_rxrawLen : (clearCounts s).rxrawLen = s.rxrawLen := rfl
@[simp] theorem clearCounts_replySize : (clearCounts s).replySize = s.replySize := rfl
@[simp] theorem clearCounts_txCnt : (clearCounts s).txCnt = 0 := rfl
@[simp] theorem clearCounts_rxCnt : (clearCounts s).rxCnt = 0 := rfl
@[simp] theorem clearCounts_mem : (clearCounts s).mem = s.mem := rfl
@[simp] theorem clearCounts_inputs : (clearCounts s).inputs = s.inputs := rfl
@[simp] theorem clearCounts_response : (clearCounts s).response = s.response := rfl
@[simp] theorem clearCounts_sent : (clearCounts s).sent = s.sent := rfl

/-! ### startTx -/

@[simp] theorem startTx_params (c : CurOp) : (startTx c s).params = s.params := rfl
@[simp] theorem startTx_phase (c : CurOp) : (startTx c s).phase = .tx := rfl
@[simp] theorem startTx_curop (c : CurOp) : (startTx c s).curop = c := rfl
@[simp] theorem startTx_err (c : CurOp) : (startTx c s).err = s.err := rfl
@[simp] theorem startTx_lastop (c : CurOp) : (startTx c s).lastop = s.lastop := rfl
@[simp] theorem startTx_dropped (c : CurOp) : (startTx c s).dropped = s.dropped := rfl
@[simp] theorem startTx_tx (c : CurOp) : (startTx c s).tx = s.tx := rfl
@[simp] theorem startTx_rx (c : CurOp) : (startTx c s).rx = s.rx := rfl
@[simp] theorem startTx_txrawLen (c : CurOp) : (startTx c s).txrawLen = s.txrawLen := rfl
@[simp] theorem startTx_rxrawLen (c : CurOp) : (startTx c s).rxrawLen = s.rxrawLen := rfl
@[simp] theorem startTx_replySize (c : CurOp) : (startTx c s).replySize = s.replySize := rfl
@[simp] theorem startTx_txCnt (c : CurOp) : (startTx c s).txCnt = s.txCnt := rfl
@[simp] theorem startTx_rxCnt (c : CurOp) : (startTx c s).rxCnt = s.rxCnt := rfl
@[simp] theorem startTx_mem (c : CurOp) : (startTx c s).mem = s.mem := rfl
@[simp] theorem startTx_inputs (c : CurOp) : (startTx c s).inputs = s.inputs := rfl
@[simp] theorem startTx_response (c : CurOp) : (startTx c s).response = s.response := rfl
@[simp] theorem startTx_sent (c : CurOp) : (startTx c s).sent = s.sent := rfl

/-! ### encodeBody -/

@[simp] theorem encodeBody_params : (encodeBody s).params = s.params := rfl
@[simp] theorem encodeBody_phase : (encodeBody s).phase = s.phase := rfl
@[simp] theorem encodeBody_curop : (encodeBody s).curop = s.curop := rfl
@[simp] theorem encodeBody_err : (encodeBody s).err = s.err := rfl
@[simp] theorem encodeBody_lastop : (encodeBody s).lastop = s.lastop := rfl
@[simp] theorem encodeBody_dropped : (encodeBody s).dropped = s.dropped := rfl
@[simp] theorem encodeBody_tx : (encodeBody s).tx = s.tx := rfl
@[simp] theorem encodeBody_rx : (encodeBody s).rx = s.rx := rfl
@[simp] theorem encodeBody_txrawLen : (encodeBody s).txrawLen = 2 + s.tx.plen := rfl
@[simp] theorem encodeBody_rxrawLen : (encodeBody s).rxrawLen = s.rxrawLen := rfl
@[simp] theorem encodeBody_replySize : (encodeBody s).replySize = s.replySize := rfl
@[simp] theorem encodeBody_txCnt : (encodeBody s).txCnt = s.txCnt := rfl
@[simp] theorem encodeBody_rxCnt : (encodeBody s).rxCnt = s.rxCnt := rfl
@[simp] theorem encodeBody_mem : (encodeBody s).mem = encodeMem s := rfl
@[simp] theorem encodeBody_inputs : (encodeBody s).inputs = s.inputs := rfl
@[simp] theorem encodeBody_response : (encodeBody s).response = s.response := rfl
@[simp] theorem encodeBody_sent : (encodeBody s).sent = s.sent := rfl

/-! ### decodeBody -/

@[simp] theorem decodeBody_params (n : Word) : (decodeBody n s).params = s.params := rfl
@[simp] theorem decodeBody_phase (n : Word) : (decodeBody n s).phase = s.phase := rfl
@[simp] theorem decodeBody_curop (n : Word) : (decodeBody n s).curop = s.curop := rfl
@[simp] theorem decodeBody_err (n : Word) : (decodeBody n s).err = s.err := rfl
@[simp] theorem decodeBody_lastop (n : Word) : (decodeBody n s).lastop = s.lastop := rfl
@[simp] theorem decodeBody_dropped (n : Word) : (decodeBody n s).dropped = s.dropped := rfl
@[simp] theorem decodeBody_tx (n : Word) : (decodeBody n s).tx = s.tx := rfl
@[simp] theorem decodeBody_rx (n : Word) : (decodeBody n s).rx = decodedFrame n s := rfl
@[simp] theorem decodeBody_txrawLen (n : Word) : (decodeBody n s).txrawLen = s.txrawLen := rfl
@[simp] theorem decodeBody_rxrawLen (n : Word) : (decodeBody n s).rxrawLen = s.rxrawLen := rfl
@[simp] theorem decodeBody_replySize (n : Word) : (decodeBody n s).replySize = s.replySize := rfl
@[simp] theorem decodeBody_txCnt (n : Word) : (decodeBody n s).txCnt = s.txCnt := rfl
@[simp] theorem decodeBody_rxCnt (n : Word) : (decodeBody n s).rxCnt = s.rxCnt := rfl
@[simp] theorem decodeBody_mem (n : Word) : (decodeBody n s).mem = decodeMem n s := rfl
@[simp] theorem decodeBody_inputs (n : Word) : (decodeBody n s).inputs = s.inputs := rfl
@[simp] theorem decodeBody_response (n : Word) : (decodeBody n s).response = s.response := rfl
@[simp] theorem decodeBody_sent (n : Word) : (decodeBody n s).sent = s.sent := rfl

/-! ### takeByte -/

@[simp] theorem takeByte_params : (takeByte s).params = s.params := rfl
@[simp] theorem takeByte_phase : (takeByte s).phase = s.phase := rfl
@[simp] theorem takeByte_curop : (takeByte s).curop = s.curop := rfl
@[simp] theorem takeByte_err : (takeByte s).err = s.err := rfl
@[simp] theorem takeByte_lastop : (takeByte s).lastop = s.lastop := rfl
@[simp] theorem takeByte_dropped : (takeByte s).dropped = s.dropped := rfl
@[simp] theorem takeByte_tx : (takeByte s).tx = s.tx := rfl
@[simp] theorem takeByte_rx : (takeByte s).rx = s.rx := rfl
@[simp] theorem takeByte_txrawLen : (takeByte s).txrawLen = s.txrawLen := rfl
@[simp] theorem takeByte_rxrawLen : (takeByte s).rxrawLen = s.rxrawLen := rfl
@[simp] theorem takeByte_replySize : (takeByte s).replySize = s.replySize := rfl
@[simp] theorem takeByte_txCnt : (takeByte s).txCnt = s.txCnt + 1 := rfl
@[simp] theorem takeByte_rxCnt : (takeByte s).rxCnt = s.rxCnt := rfl
@[simp] theorem takeByte_mem : (takeByte s).mem = s.mem := rfl
@[simp] theorem takeByte_inputs : (takeByte s).inputs = s.inputs := rfl
@[simp] theorem takeByte_response : (takeByte s).response = s.response := rfl
@[simp] theorem takeByte_sent : (takeByte s).sent = s.sent ++ [s.entry .txraw s.txCnt.toNat] := rfl

/-! ### putByte -/

@[simp] theorem putByte_params (b : Byte) : (putByte b s).params = s.params := rfl
@[simp] theorem putByte_phase (b : Byte) : (putByte b s).phase = s.phase := rfl
@[simp] theorem putByte_curop (b : Byte) : (putByte b s).curop = s.curop := rfl
@[simp] theorem putByte_err (b : Byte) : (putByte b s).err = s.err := rfl
@[simp] theorem putByte_lastop (b : Byte) : (putByte b s).lastop = s.lastop := rfl
@[simp] theorem putByte_dropped (b : Byte) : (putByte b s).dropped = s.dropped := rfl
@[simp] theorem putByte_tx (b : Byte) : (putByte b s).tx = s.tx := rfl
@[simp] theorem putByte_rx (b : Byte) : (putByte b s).rx = s.rx := rfl
@[simp] theorem putByte_txrawLen (b : Byte) : (putByte b s).txrawLen = s.txrawLen := rfl
@[simp] theorem putByte_rxrawLen (b : Byte) : (putByte b s).rxrawLen = s.rxrawLen := rfl
@[simp] theorem putByte_replySize (b : Byte) : (putByte b s).replySize = s.replySize := rfl
@[simp] theorem putByte_txCnt (b : Byte) : (putByte b s).txCnt = s.txCnt := rfl
@[simp] theorem putByte_rxCnt (b : Byte) : (putByte b s).rxCnt = s.rxCnt + 1 := rfl
@[simp] theorem putByte_mem (b : Byte) : (putByte b s).mem = storeEntry s.params .rxraw s.rxCnt.toNat b s.mem := rfl
@[simp] theorem putByte_inputs (b : Byte) : (putByte b s).inputs = s.inputs := rfl
@[simp] theorem putByte_response (b : Byte) : (putByte b s).response = s.response := rfl
@[simp] theorem putByte_sent (b : Byte) : (putByte b s).sent = s.sent := rfl

/-! ### respond -/

@[simp] theorem respond_params (r : BusResponse) : (respond r s).params = s.params := rfl
@[simp] theorem respond_phase (r : BusResponse) : (respond r s).phase = s.phase := rfl
@[simp] theorem respond_curop (r : BusResponse) : (respond r s).curop = s.curop := rfl
@[simp] theorem respond_err (r : BusResponse) : (respond r s).err = s.err := rfl
@[simp] theorem respond_lastop (r : BusResponse) : (respond r s).lastop = s.lastop := rfl
@[simp] theorem respond_dropped (r : BusResponse) : (respond r s).dropped = s.dropped := rfl
@[simp] theorem respond_tx (r : BusResponse) : (respond r s).tx = s.tx := rfl
@[simp] theorem respond_rx (r : BusResponse) : (respond r s).rx = s.rx := rfl
@[simp] theorem respond_txrawLen (r : BusResponse) : (respond r s).txrawLen = s.txrawLen := rfl
@[simp] theorem respond_rxrawLen (r : BusResponse) : (respond r s).rxrawLen = s.rxrawLen := rfl
@[simp] theorem respond_replySize (r : BusResponse) : (respond r s).replySize = s.replySize := rfl
@[simp] theorem respond_txCnt (r : BusResponse) : (respond r s).txCnt = s.txCnt := rfl
@[simp] theorem respond_rxCnt (r : BusResponse) : (respond r s).rxCnt = s.rxCnt := rfl
@[simp] theorem respond_mem (r : BusResponse) : (respond r s).mem = s.mem := rfl
@[simp] theorem respond_inputs (r : BusResponse) : (respond r s).inputs = s.inputs := rfl
@[simp] theorem respond_response (r : BusResponse) : (respond r s).response = some r := rfl
@[simp] theorem respond_sent (r : BusResponse) : (respond r s).sent = s.sent := rfl

/-! ### schedule -/

@[simp] theorem schedule_params (r : List Input) : (schedule r s).params = s.params := rfl
@[simp] theorem schedule_phase (r : List Input) : (schedule r s).phase = s.phase := rfl
@[simp] theorem schedule_curop (r : List Input) : (schedule r s).curop = s.curop := rfl
@[simp] theorem schedule_err (r : List Input) : (schedule r s).err = s.err := rfl
@[simp] theorem schedule_lastop (r : List Input) : (schedule r s).lastop = s.lastop := rfl
@[simp] theorem schedule_dropped (r : List Input) : (schedule r s).dropped = s.dropped := rfl
@[simp] theorem schedule_tx (r : List Input) : (schedule r s).tx = s.tx := rfl
@[simp] theorem schedule_rx (r : List Input) : (schedule r s).rx = s.rx := rfl
@[simp] theorem schedule_txrawLen (r : List Input) : (schedule r s).txrawLen = s.txrawLen := rfl
@[simp] theorem schedule_rxrawLen (r : List Input) : (schedule r s).rxrawLen = s.rxrawLen := rfl
@[simp] theorem schedule_replySize (r : List Input) : (schedule r s).replySize = s.replySize := rfl
@[simp] theorem schedule_txCnt (r : List Input) : (schedule r s).txCnt = s.txCnt := rfl
@[simp] theorem schedule_rxCnt (r : List Input) : (schedule r s).rxCnt = s.rxCnt := rfl
@[simp] theorem schedule_mem (r : List Input) : (schedule r s).mem = s.mem := rfl
@[simp] theorem schedule_inputs (r : List Input) : (schedule r s).inputs = r := rfl
@[simp] theorem schedule_response (r : List Input) : (schedule r s).response = s.response := rfl
@[simp] theorem schedule_sent (r : List Input) : (schedule r s).sent = s.sent := rfl

/-! ### resetBlock -/

@[simp] theorem resetBlock_params : (resetBlock s).params = s.params := rfl
@[simp] theorem resetBlock_phase : (resetBlock s).phase = .idle := rfl
@[simp] theorem resetBlock_curop : (resetBlock s).curop = s.curop := rfl
@[simp] theorem resetBlock_err : (resetBlock s).err = .none := rfl
@[simp] theorem resetBlock_lastop : (resetBlock s).lastop = 0 := rfl
@[simp] theorem resetBlock_dropped : (resetBlock s).dropped = false := rfl
@[simp] theorem resetBlock_tx : (resetBlock s).tx = ⟨0, 0, 0, 0, 0⟩ := rfl
@[simp] theorem resetBlock_rx : (resetBlock s).rx = ⟨0, 0, 0, 0, 0⟩ := rfl
@[simp] theorem resetBlock_txrawLen : (resetBlock s).txrawLen = 0 := rfl
@[simp] theorem resetBlock_rxrawLen : (resetBlock s).rxrawLen = 0 := rfl
@[simp] theorem resetBlock_replySize : (resetBlock s).replySize = 12 := rfl
@[simp] theorem resetBlock_txCnt : (resetBlock s).txCnt = 0 := rfl
@[simp] theorem resetBlock_rxCnt : (resetBlock s).rxCnt = 0 := rfl
@[simp] theorem resetBlock_mem : (resetBlock s).mem = s.mem := rfl
@[simp] theorem resetBlock_inputs : (resetBlock s).inputs = s.inputs := rfl
@[simp] theorem resetBlock_response : (resetBlock s).response = s.response := rfl
@[simp] theorem resetBlock_sent : (resetBlock s).sent = s.sent := rfl

end Sys2Proof.Machine
end

