-- ==== Sys2Proof/Laws/Memory.lean ====
section
/-! SUPPORT. The laws of memory cells and buffer entries: a read after a write, what a write leaves alone, and
that every operation keeps the canonical form; then the same for entries and for the copy loop. -/

namespace Sys2Proof.Machine

/-! ### Cells -/

theorem Memory.load_of_lt (m : Memory) (a : Nat) (h : ∀ c ∈ m, a < c.1) : m.load a = 0 := by
  induction m with
  | nil => rfl
  | cons c r ih =>
    obtain ⟨k, b⟩ := c
    have hk : a < k := h (k, b) (by simp)
    have hr := ih fun c hc => h c (by simp [hc])
    simp [Memory.load, show k ≠ a by omega, hr]

theorem Memory.load_push_ne (m : Memory) (a x : Nat) (v : Byte) (h : x ≠ a) :
    (Memory.push a v m).load x = m.load x := by
  unfold Memory.push
  split <;> simp [Memory.load, Ne.symm h]

theorem Memory.load_push_same (m : Memory) (a : Nat) (v : Byte) (h : m.load a = 0) :
    (Memory.push a v m).load a = v := by
  unfold Memory.push
  split
  · rename_i hv; rw [h, hv]; rfl
  · simp [Memory.load]

/-- A write leaves every other offset alone. -/
theorem Memory.load_store_ne (m : Memory) (a x : Nat) (v : Byte) (h : x ≠ a) :
    (m.store a v).load x = m.load x := by
  induction m with
  | nil => exact Memory.load_push_ne [] a x v h
  | cons c r ih =>
    obtain ⟨k, b⟩ := c
    unfold Memory.store
    split
    · simp [Memory.load, ih]
    · split
      · rename_i _ hk
        rw [Memory.load_push_ne _ _ _ _ h]
        simp [Memory.load, show k ≠ x by omega]
      · exact Memory.load_push_ne _ _ _ _ h

theorem Memory.wf_tail {c : Host.Cell} {r : Memory} (h : Memory.wf (c :: r)) : Memory.wf r :=
  ⟨(List.pairwise_cons.mp h.1).2, fun x hx => h.2 x (by simp [hx])⟩

theorem Memory.wf_head_lt {c : Host.Cell} {r : Memory} (h : Memory.wf (c :: r)) : ∀ x ∈ r, c.1 < x.1 :=
  (List.pairwise_cons.mp h.1).1

/-- A read after a write to the same offset gives the byte written. -/
theorem Memory.load_store_same (m : Memory) (a : Nat) (v : Byte) (h : m.wf) : (m.store a v).load a = v := by
  induction m with
  | nil => exact Memory.load_push_same [] a v rfl
  | cons c r ih =>
    obtain ⟨k, b⟩ := c
    have hlt := Memory.wf_head_lt h
    unfold Memory.store
    split
    · rename_i hk
      simp [Memory.load, show k ≠ a by omega, ih (Memory.wf_tail h)]
    · split
      · rename_i _ hk
        exact Memory.load_push_same _ _ _ (Memory.load_of_lt _ _ fun c hc => hk ▸ hlt c hc)
      · rename_i h1 h2
        refine Memory.load_push_same _ _ _ (Memory.load_of_lt _ _ fun c hc => ?_)
        obtain rfl | hc := List.mem_cons.mp hc
        · change a < k; omega
        · have := hlt c hc
          simp only at this
          omega

theorem Memory.load_store (m : Memory) (a x : Nat) (v : Byte) (h : m.wf) :
    (m.store a v).load x = if x = a then v else m.load x := by
  split
  · rename_i hx; rw [hx, Memory.load_store_same m a v h]
  · rename_i hx; exact Memory.load_store_ne m a x v hx

theorem Memory.mem_push {c : Host.Cell} {a : Nat} {v : Byte} {m : Memory} (h : c ∈ Memory.push a v m) :
    c = (a, v) ∨ c ∈ m := by
  unfold Memory.push at h
  split at h
  · exact .inr h
  · simpa using h

/-- Every cell after a write is the cell written or a cell from before. -/
theorem Memory.mem_store {c : Host.Cell} {m : Memory} {a : Nat} {v : Byte} (h : c ∈ m.store a v) :
    c = (a, v) ∨ c ∈ m := by
  induction m with
  | nil => exact Memory.mem_push h
  | cons d r ih =>
    obtain ⟨k, b⟩ := d
    unfold Memory.store at h
    split at h
    · obtain rfl | h := List.mem_cons.mp h
      · simp
      · rcases ih h with h | h <;> simp [h]
    · split at h
      · rcases Memory.mem_push h with h | h <;> simp [h]
      · exact Memory.mem_push h

theorem Memory.wf_push {m : Memory} {a : Nat} {v : Byte} (h : m.wf) (ha : ∀ c ∈ m, a < c.1) :
    Memory.wf (Memory.push a v m) := by
  unfold Memory.push
  split
  · exact h
  · rename_i hv
    refine ⟨List.pairwise_cons.mpr ⟨ha, h.1⟩, fun c hc => ?_⟩
    obtain rfl | hc := List.mem_cons.mp hc
    · exact hv
    · exact h.2 c hc

/-- A write keeps the canonical form. -/
theorem Memory.store_wf (m : Memory) (a : Nat) (v : Byte) (h : m.wf) : (m.store a v).wf := by
  induction m with
  | nil => exact Memory.wf_push h (by simp)
  | cons c r ih =>
    obtain ⟨k, b⟩ := c
    have hlt := Memory.wf_head_lt h
    have hr := ih (Memory.wf_tail h)
    unfold Memory.store
    split
    · rename_i hk
      refine ⟨List.pairwise_cons.mpr ⟨fun c hc => ?_, hr.1⟩, fun c hc => ?_⟩
      · rcases Memory.mem_store hc with rfl | hc
        · exact hk
        · exact hlt c hc
      · obtain rfl | hc := List.mem_cons.mp hc
        · exact h.2 _ (by simp)
        · exact hr.2 c hc
    · split
      · rename_i _ hk
        exact Memory.wf_push (Memory.wf_tail h) fun c hc => hk ▸ hlt c hc
      · rename_i h1 h2
        refine Memory.wf_push h fun c hc => ?_
        obtain rfl | hc := List.mem_cons.mp hc
        · change a < k; omega
        · have := hlt c hc
          simp only at this
          omega

/-! ### Entries -/

/-- Two entries of windows of 256 words lie at one offset only if they are the same entry (20 R41). -/
theorem entryOffset_inj {b b' : Buf} {i i' : Nat} (hi : i < 256) (hi' : i' < 256)
    (h : entryOffset b i = entryOffset b' i') : b = b' ∧ i = i' := by
  cases b <;> cases b' <;> simp [entryOffset, Buf.window] at h ⊢ <;> omega

theorem regAt_offset (r : Reg) : regAt r.offset = some r := by cases r <;> rfl

/-- The offset decode finds every entry of a window (20 R40, R41). -/
theorem targetOf_entryOffset (b : Buf) (i : Nat) (hi : i < 256) : targetOf (entryOffset b i) = .entry b i := by
  have h : ∀ a, targetOf a = if a < 0x400 then (match regAt a with | some r => .reg r | none => .reserved)
      else if a < 0x800 then .entry .txpay ((a - 0x400) / 4) else if a < 0xC00 then .entry .txraw ((a - 0x800) / 4)
      else if a < 0x1000 then .entry .rxraw ((a - 0xC00) / 4) else .entry .rxpay ((a - 0x1000) / 4) := fun _ => rfl
  rw [h, entryOffset]
  cases b <;> generalize hw : Buf.window _ + 4 * i = a <;> simp only [Buf.window] at hw
  · rw [if_neg (by omega), if_pos (by omega)]; congr; omega
  · rw [if_neg (by omega), if_neg (by omega), if_pos (by omega)]; congr; omega
  · rw [if_neg (by omega), if_neg (by omega), if_neg (by omega), if_pos (by omega)]; congr; omega
  · rw [if_neg (by omega), if_neg (by omega), if_neg (by omega), if_neg (by omega)]; congr; omega

theorem targetOf_offset (r : Reg) : targetOf r.offset = .reg r := by cases r <;> rfl

theorem isBacked_entryOffset {p : Params} (b : Buf) {i : Nat} (hp : p.bufBytes ≤ 256) (hi : i < p.bufBytes) :
    isBacked p (entryOffset b i) = true := by
  have h1 : 0x400 ≤ entryOffset b i := by unfold entryOffset; cases b <;> simp only [Buf.window] <;> omega
  have h2 : entryOffset b i % 4 = 0 := by unfold entryOffset; cases b <;> simp only [Buf.window] <;> omega
  simp [isBacked, targetOf_entryOffset b i (by omega), h1, h2, hi]

theorem storeEntry_load_same {p : Params} {b : Buf} {i : Nat} {v : Byte} {m : Memory} (hm : m.wf)
    (hi : i < p.bufBytes) : (storeEntry p b i v m).load (entryOffset b i) = v := by
  simp [storeEntry, hi, Memory.load_store_same _ _ _ hm]

theorem storeEntry_load_ne {p : Params} {b : Buf} {i : Nat} {v : Byte} {m : Memory} {a : Nat}
    (ha : a ≠ entryOffset b i) : (storeEntry p b i v m).load a = m.load a := by
  unfold storeEntry
  split
  · exact Memory.load_store_ne _ _ _ _ ha
  · rfl

/-- Writing an entry keeps the memory canonical and on backed offsets. -/
theorem storeEntry_legal {p : Params} {b : Buf} {i : Nat} {v : Byte} {m : Memory} (hp : p.bufBytes ≤ 256)
    (hm : m.legal p) : (storeEntry p b i v m).legal p := by
  unfold storeEntry
  split
  · rename_i hi
    refine ⟨Memory.store_wf _ _ _ hm.1, fun c hc => ?_⟩
    rcases Memory.mem_store hc with rfl | hc
    · exact isBacked_entryOffset b hp hi
    · exact hm.2 c hc
  · exact hm

theorem storeEntry_wf {p : Params} {b : Buf} {i : Nat} {v : Byte} {m : Memory} (hm : m.wf) :
    (storeEntry p b i v m).wf := by
  unfold storeEntry
  split
  · exact Memory.store_wf _ _ _ hm
  · exact hm

theorem loadEntry_storeEntry_ne {p : Params} {b b' : Buf} {i i' : Nat} {v : Byte} {m : Memory}
    (hp : p.bufBytes ≤ 256) (h : b' ≠ b ∨ i' ≠ i) :
    loadEntry p b' i' (storeEntry p b i v m) = loadEntry p b' i' m := by
  unfold loadEntry
  split
  · rename_i hi'
    unfold storeEntry
    split
    · rename_i hi
      refine Memory.load_store_ne _ _ _ _ fun he => ?_
      have := entryOffset_inj (by omega) (by omega) he
      tauto
    · rfl
  · rfl

/-! ### The copy loop -/

theorem copyEntries_wf {p : Params} {src dst : Buf} {sa da n : Nat} {m : Memory} (hm : m.wf) :
    (copyEntries p src sa dst da n m).wf := by
  induction n with
  | zero => exact hm
  | succ k ih => exact storeEntry_wf ih

theorem copyEntries_legal {p : Params} {src dst : Buf} {sa da n : Nat} {m : Memory} (hp : p.bufBytes ≤ 256)
    (hm : m.legal p) : (copyEntries p src sa dst da n m).legal p := by
  induction n with
  | zero => exact hm
  | succ k ih => exact storeEntry_legal hp ih

/-- The copy writes no offset but those of its destination entries. -/
theorem copyEntries_load_ne {p : Params} {src dst : Buf} {sa da n : Nat} {m : Memory} {a : Nat}
    (ha : ∀ k < n, a ≠ entryOffset dst (da + k)) : (copyEntries p src sa dst da n m).load a = m.load a := by
  induction n with
  | zero => rfl
  | succ k ih =>
    unfold copyEntries
    rw [storeEntry_load_ne (ha k (by omega)), ih fun j hj => ha j (by omega)]

/-- The copy leaves every other buffer alone. -/
theorem copyEntries_other {p : Params} {src dst b : Buf} {sa da n i : Nat} {m : Memory} (hp : p.bufBytes ≤ 256)
    (hb : b ≠ dst) : loadEntry p b i (copyEntries p src sa dst da n m) = loadEntry p b i m := by
  induction n with
  | zero => rfl
  | succ k ih => unfold copyEntries; rw [loadEntry_storeEntry_ne hp (.inl hb), ih]

/-- Each destination entry of the copy holds its source entry. -/
theorem copyEntries_load {p : Params} {src dst : Buf} {sa da n k : Nat} {m : Memory} (hp : p.bufBytes ≤ 256)
    (hm : m.wf) (hb : src ≠ dst) (hd : da + n ≤ p.bufBytes) (hk : k < n) :
    (copyEntries p src sa dst da n m).load (entryOffset dst (da + k)) = loadEntry p src (sa + k) m := by
  induction n with
  | zero => omega
  | succ j ih =>
    unfold copyEntries
    by_cases hkj : k = j
    · subst hkj
      rw [storeEntry_load_same (copyEntries_wf hm) (by omega), copyEntries_other hp hb]
    · rw [storeEntry_load_ne, ih (by omega) (by omega)]
      intro he
      have := entryOffset_inj (by omega) (by omega) he
      omega

end Sys2Proof.Machine
end

