-- ==== Sys2Proof/Laws/Codec.lean ====
section
/-! SUPPORT. The laws of the codec: the strict check in plain arithmetic, the packer and unpacker, and what the
stores of the encode and decode bodies leave in memory. -/

namespace Sys2Proof.Machine

/-! ### Parameters -/

theorem Params.bounds {p : Params} (h : p.wellFormed = true) :
    12 ≤ p.bufBytes ∧ p.bufBytes ≤ 256 ∧ p.base % 0x2000 = 0 := by
  simpa [Params.wellFormed, and_assoc] using h

/-! ### The strict check and the length check -/

/-- The strict check of 41 R79 is the range condition on the four fields. -/
theorem fieldOutOfRange_eq_false {s : State} : fieldOutOfRange s.tx = false ↔ s.txInRange := by
  simp [fieldOutOfRange, State.txInRange, BitVec.lt_def, and_assoc]

theorem fieldOutOfRange_eq_true {s : State} : fieldOutOfRange s.tx = true ↔ ¬ s.txInRange := by
  rw [← fieldOutOfRange_eq_false]; simp

theorem encodeCheck_badLength {strict : Bool} {s : State} (h : s.params.bufBytes - 2 < s.tx.plen.toNat) :
    encodeCheck strict s = .badLength := by simp [encodeCheck, h]

theorem encodeCheck_outOfRange {s : State} (h : s.tx.plen.toNat ≤ s.params.bufBytes - 2) (hr : ¬ s.txInRange) :
    encodeCheck true s = .fieldOutOfRange := by
  simp [encodeCheck, Nat.not_lt.mpr h, fieldOutOfRange_eq_true.mpr hr]

theorem encodeCheck_none {strict : Bool} {s : State} (h : s.tx.plen.toNat ≤ s.params.bufBytes - 2)
    (hr : strict = true → s.txInRange) : encodeCheck strict s = .none := by
  cases strict
  · simp [encodeCheck, Nat.not_lt.mpr h]
  · simp [encodeCheck, Nat.not_lt.mpr h, fieldOutOfRange_eq_false.mpr (hr rfl)]

/-- In a passed check the payload length is legal. -/
theorem plen_le_of_encodeCheck {strict : Bool} {s : State} (h : encodeCheck strict s = .none) :
    s.tx.plen.toNat ≤ s.params.bufBytes - 2 := by
  unfold encodeCheck at h
  split at h
  · cases h
  · omega

/-- `2 + R[TX_PLEN]` does not wrap (41 R75). -/
theorem toNat_two_add_plen {s : State} (hp : s.params.wellFormed = true)
    (h : s.tx.plen.toNat ≤ s.params.bufBytes - 2) : (2 + s.tx.plen).toNat = 2 + s.tx.plen.toNat := by
  have := Params.bounds hp
  rw [BitVec.toNat_add]
  simp
  omega

/-! ### What the bodies store -/

theorem encodeMem_legal {s : State} (hp : s.params.wellFormed = true) (hm : s.mem.legal s.params) :
    (encodeMem s).legal s.params :=
  have h := (Params.bounds hp).2.1
  copyEntries_legal h (storeEntry_legal h (storeEntry_legal h hm))

theorem decodeMem_legal {s : State} {n : Word} (hp : s.params.wellFormed = true) (hm : s.mem.legal s.params) :
    (decodeMem n s).legal s.params :=
  copyEntries_legal (Params.bounds hp).2.1 hm

/-- The encode body stores the frame and nothing else (41 R80). -/
theorem encodeMem_frameStored {s : State} (hp : s.params.wellFormed = true) (hm : s.mem.wf)
    (h : s.tx.plen.toNat ≤ s.params.bufBytes - 2) : s.frameStored (encodeMem s) := by
  have hb := Params.bounds hp
  have hw0 : (storeEntry s.params .txraw 0 (headerByte0 (pack (maskedHeader s.tx))) s.mem).wf := storeEntry_wf hm
  have hw1 : (storeEntry s.params .txraw 1 (headerByte1 (pack (maskedHeader s.tx)))
    (storeEntry s.params .txraw 0 (headerByte0 (pack (maskedHeader s.tx))) s.mem)).wf := storeEntry_wf hw0
  have apart : ∀ j k, j < 2 → k < s.tx.plen.toNat → entryOffset .txraw j ≠ entryOffset .txraw (2 + k) := by
    intro j k hj hk he
    have := entryOffset_inj (by omega) (by omega) he
    omega
  constructor
  · intro k hk
    unfold encodeMem State.frameByte
    by_cases h0 : k = 0
    · subst h0
      rw [copyEntries_load_ne fun j hj => apart 0 j (by omega) hj, storeEntry_load_ne (by decide),
        storeEntry_load_same hm (by omega)]
      rfl
    · by_cases h1 : k = 1
      · subst h1
        rw [copyEntries_load_ne fun j hj => apart 1 j (by omega) hj, storeEntry_load_same hw0 (by omega)]
        rfl
      · obtain ⟨j, rfl⟩ : ∃ j, k = 2 + j := ⟨k - 2, by omega⟩
        rw [copyEntries_load hb.2.1 hw1 (by decide) (by omega) (by omega), if_neg h0, if_neg h1,
          loadEntry_storeEntry_ne hb.2.1 (.inl (by decide)), loadEntry_storeEntry_ne hb.2.1 (.inl (by decide))]
        simp [State.entry]
  · intro a ha
    unfold encodeMem
    rw [copyEntries_load_ne fun j hj => ha (2 + j) (by omega), storeEntry_load_ne (ha 1 (by omega)),
      storeEntry_load_ne (ha 0 (by omega))]

/-- The decode body stores the payload and nothing else (41 R81). -/
theorem decodeMem_payloadStored {s : State} {n : Word} (hp : s.params.wellFormed = true) (hm : s.mem.wf)
    (h : n.toNat ≤ s.params.bufBytes) : payloadStored s.params n.toNat s.mem (decodeMem n s) := by
  have hb := Params.bounds hp
  constructor
  · intro k hk
    have := copyEntries_load (sa := 2) (da := 0) hb.2.1 hm (src := .rxraw) (dst := .rxpay) (by decide)
      (by omega : 0 + (n.toNat - 2) ≤ s.params.bufBytes) hk
    simpa [decodeMem] using this
  · intro a ha
    exact copyEntries_load_ne fun j hj => by simpa using ha j hj

/-- An encode leaves every buffer but TXRAW alone. -/
theorem encodeMem_other {s : State} {b : Buf} {i : Nat} (hp : s.params.wellFormed = true) (hb : b ≠ .txraw) :
    loadEntry s.params b i (encodeMem s) = loadEntry s.params b i s.mem := by
  have h := (Params.bounds hp).2.1
  unfold encodeMem
  rw [copyEntries_other h hb, loadEntry_storeEntry_ne h (.inl hb), loadEntry_storeEntry_ne h (.inl hb)]

/-- A decode leaves every buffer but RXPAY alone. -/
theorem decodeMem_other {s : State} {n : Word} {b : Buf} {i : Nat} (hp : s.params.wellFormed = true)
    (hb : b ≠ .rxpay) : loadEntry s.params b i (decodeMem n s) = loadEntry s.params b i s.mem :=
  copyEntries_other (Params.bounds hp).2.1 hb

theorem decodedFrame_eq (n : Word) (s : State) :
    decodedFrame n s = rxFrameOf (s.entry .rxraw 0) (s.entry .rxraw 1) n := rfl

end Sys2Proof.Machine
end

