-- ==== Sys2Proof/Laws/Exec.lean ====
section
/-! SUPPORT. The laws of commands and engine steps: exec as one equation, the two sides of the busy rule, and one
lemma for each shared body that says all it can do. -/

namespace Sys2Proof.Machine

/-- CMD.OP of a command's words (30 R62, R63): what acceptance records in LASTOP. -/
def opOf (i : Instr) : BitVec 3 := (nibbleOf i).extractLsb' 0 3

/-- What a command does once it is accepted (40 R73). -/
def bodyOf (i : Instr) : State → State :=
  match i with
  | .encode => runEncode false
  | .encodeS => runEncode true
  | .decode => runDecode
  | .exchange => runExchange false
  | .exchangeS => runExchange true
  | .sendOnly => runSendOnly
  | .illegal0 => runIllegal
  | .illegal5 => runIllegal
  | .illegal6 => runIllegal
  | .illegal7 => runIllegal
  | .illegal8 => runIllegal
  | .illegalA => runIllegal
  | .illegalC => runIllegal
  | .illegalD => runIllegal
  | .illegalE => runIllegal
  | .illegalF => runIllegal

/-- Every command is acceptance and its body when idle, and a dropped write when busy. -/
theorem exec_eq (i : Instr) (s : State) : exec i s = .next (command (opOf i) (bodyOf i) s) := by
  cases i <;> rfl

theorem command_idle {op : BitVec 3} {run : State → State} {s : State} (h : s.phase = .idle) :
    command op run s = run (accept op s) := by simp [command, h]

theorem command_busy {op : BitVec 3} {run : State → State} {s : State} (h : s.phase ≠ .idle) :
    command op run s = dropWrite s := by simp [command, h]

theorem exec_idle {i : Instr} {s : State} (h : s.phase = .idle) : exec i s = .next (bodyOf i (accept (opOf i) s)) := by
  rw [exec_eq, command_idle h]

theorem exec_busy {i : Instr} {s : State} (h : s.phase ≠ .idle) : exec i s = .next (dropWrite s) := by
  rw [exec_eq, command_busy h]

/-! ### All each body can do -/

theorem runEncode_cases (strict : Bool) (s : State) :
    (encodeCheck strict s = .none ∧ runEncode strict s = complete .none (encodeBody s)) ∨
    (encodeCheck strict s ≠ .none ∧ runEncode strict s = complete (encodeCheck strict s) s) := by
  unfold runEncode
  by_cases h : encodeCheck strict s = .none
  · exact .inl ⟨h, by rw [if_pos h]⟩
  · exact .inr ⟨h, by rw [if_neg h]⟩

theorem runDecode_cases (s : State) :
    (2 ≤ s.rxrawLen.toNat ∧ s.rxrawLen.toNat ≤ s.params.bufBytes ∧
      runDecode s = complete .none (decodeBody s.rxrawLen s)) ∨
    (s.params.bufBytes < s.rxrawLen.toNat ∧ runDecode s = complete .badLength s) ∨
    (s.rxrawLen.toNat ≤ s.params.bufBytes ∧ s.rxrawLen.toNat < 2 ∧ runDecode s = complete .frameTooShort s) := by
  unfold runDecode
  split
  · exact .inr (.inl ⟨‹_›, rfl⟩)
  · split
    · exact .inr (.inr ⟨by omega, ‹_›, rfl⟩)
    · exact .inl ⟨by omega, by omega, rfl⟩

theorem runExchange_cases (strict : Bool) (s : State) :
    (s.replySize.toNat ≤ s.params.bufBytes ∧ encodeCheck strict s = .none ∧
      runExchange strict s = startTx .exchange (encodeBody (clearCounts s))) ∨
    (s.params.bufBytes < s.replySize.toNat ∧ runExchange strict s = complete .badLength (clearCounts s)) ∨
    (s.replySize.toNat ≤ s.params.bufBytes ∧ encodeCheck strict s ≠ .none ∧
      runExchange strict s = complete (encodeCheck strict s) (clearCounts s)) := by
  have hc : encodeCheck strict (clearCounts s) = encodeCheck strict s := rfl
  unfold runExchange beginExchange
  simp only [clearCounts_replySize, clearCounts_params, hc]
  split
  · exact .inr (.inl ⟨‹_›, rfl⟩)
  · split
    · exact .inl ⟨by omega, ‹_›, rfl⟩
    · exact .inr (.inr ⟨by omega, ‹_›, rfl⟩)

theorem runSendOnly_cases (s : State) :
    (0 < s.txrawLen.toNat ∧ s.txrawLen.toNat ≤ s.params.bufBytes ∧
      runSendOnly s = startTx .sendOnly (clearCounts s)) ∨
    (s.params.bufBytes < s.txrawLen.toNat ∧ runSendOnly s = complete .badLength (clearCounts s)) ∨
    (s.txrawLen.toNat ≤ s.params.bufBytes ∧ s.txrawLen = 0 ∧ runSendOnly s = complete .none (clearCounts s)) := by
  have h : runSendOnly s = if s.txrawLen.toNat > s.params.bufBytes then complete .badLength (clearCounts s)
      else if s.txrawLen = 0 then complete .none (clearCounts s) else startTx .sendOnly (clearCounts s) := rfl
  rw [h]
  by_cases h1 : s.txrawLen.toNat > s.params.bufBytes
  · exact .inr (.inl ⟨h1, if_pos h1⟩)
  · rw [if_neg h1]
    by_cases h2 : s.txrawLen = 0
    · exact .inr (.inr ⟨by omega, h2, if_pos h2⟩)
    · refine .inl ⟨Nat.pos_of_ne_zero fun h => h2 (BitVec.eq_of_toNat_eq (by simpa using h)), by omega, if_neg h2⟩

theorem readDone_cases (s : State) :
    (2 ≤ s.replySize.toNat ∧
      readDone s = complete .none (decodeBody s.replySize { s with rxrawLen := s.replySize })) ∨
    (s.replySize.toNat < 2 ∧ readDone s = complete .replyMalformed { s with rxrawLen := s.replySize }) := by
  unfold readDone
  split
  · exact .inr ⟨‹_›, rfl⟩
  · exact .inl ⟨by omega, rfl⟩

theorem afterTx_cases (s : State) :
    (s.txCnt ≠ s.txrawLen ∧ afterTx s = s) ∨
    (s.txCnt = s.txrawLen ∧ s.curop = .sendOnly ∧ afterTx s = complete .none s) ∨
    (s.txCnt = s.txrawLen ∧ s.curop = .exchange ∧ s.replySize ≠ 0 ∧ afterTx s = { s with phase := .rx }) ∨
    (s.txCnt = s.txrawLen ∧ s.curop = .exchange ∧ s.replySize = 0 ∧
      afterTx s = complete .replyMalformed { s with rxrawLen := 0 }) := by
  unfold afterTx
  by_cases h : s.txCnt = s.txrawLen
  · cases hc : s.curop
    · by_cases hr : s.replySize = 0
      · exact .inr (.inr (.inr ⟨h, rfl, hr, by simp [h, hr, readDone, complete]⟩))
      · exact .inr (.inr (.inl ⟨h, rfl, hr, by simp only [h, if_true]; exact if_neg hr⟩))
    · exact .inr (.inl ⟨h, rfl, by simp [h]⟩)
  · exact .inl ⟨h, by simp [h]⟩

theorem afterRx_cases (s : State) :
    (s.rxCnt ≠ s.replySize ∧ afterRx s = s) ∨ (s.rxCnt = s.replySize ∧ afterRx s = readDone s) := by
  unfold afterRx
  by_cases h : s.rxCnt = s.replySize
  · exact .inr ⟨h, by simp [h]⟩
  · exact .inl ⟨h, by simp [h]⟩

/-! ### What no body and no engine step changes -/

theorem bodyOf_fields (i : Instr) (s : State) :
    (bodyOf i s).params = s.params ∧ (bodyOf i s).lastop = s.lastop ∧ (bodyOf i s).dropped = s.dropped ∧
    (bodyOf i s).tx = s.tx ∧ (bodyOf i s).replySize = s.replySize ∧ (bodyOf i s).rxrawLen = s.rxrawLen ∧
    (bodyOf i s).inputs = s.inputs ∧ (bodyOf i s).response = s.response ∧ (bodyOf i s).sent = s.sent := by
  cases i <;> try exact ⟨rfl, rfl, rfl, rfl, rfl, rfl, rfl, rfl, rfl⟩
  · rcases runEncode_cases false s with ⟨-, h⟩ | ⟨-, h⟩ <;> simp [bodyOf, h]
  · rcases runEncode_cases true s with ⟨-, h⟩ | ⟨-, h⟩ <;> simp [bodyOf, h]
  · rcases runDecode_cases s with ⟨-, -, h⟩ | ⟨-, h⟩ | ⟨-, -, h⟩ <;> simp [bodyOf, h]
  · rcases runExchange_cases false s with ⟨-, -, h⟩ | ⟨-, h⟩ | ⟨-, -, h⟩ <;> simp [bodyOf, h]
  · rcases runExchange_cases true s with ⟨-, -, h⟩ | ⟨-, h⟩ | ⟨-, -, h⟩ <;> simp [bodyOf, h]
  · rcases runSendOnly_cases s with ⟨-, -, h⟩ | ⟨-, h⟩ | ⟨-, -, h⟩ <;> simp [bodyOf, h]

theorem readDone_fields (s : State) :
    (readDone s).params = s.params ∧ (readDone s).phase = .idle ∧ (readDone s).curop = s.curop ∧
    (readDone s).lastop = s.lastop ∧ (readDone s).dropped = s.dropped ∧ (readDone s).tx = s.tx ∧
    (readDone s).txrawLen = s.txrawLen ∧ (readDone s).rxrawLen = s.replySize ∧ (readDone s).replySize = s.replySize ∧
    (readDone s).txCnt = s.txCnt ∧ (readDone s).rxCnt = s.rxCnt ∧ (readDone s).inputs = s.inputs ∧
    (readDone s).response = s.response ∧ (readDone s).sent = s.sent := by
  rcases readDone_cases s with ⟨-, h⟩ | ⟨-, h⟩ <;> simp [h]

theorem channelEvent_fields (e : ChannelEvent) (s : State) :
    (channelEvent e s).params = s.params ∧ (channelEvent e s).curop = s.curop ∧ (channelEvent e s).lastop = s.lastop ∧
    (channelEvent e s).dropped = s.dropped ∧ (channelEvent e s).tx = s.tx ∧
    (channelEvent e s).txrawLen = s.txrawLen ∧ (channelEvent e s).replySize = s.replySize ∧
    (channelEvent e s).inputs = s.inputs ∧ (channelEvent e s).response = s.response := by
  unfold channelEvent
  split <;> try exact ⟨rfl, rfl, rfl, rfl, rfl, rfl, rfl, rfl, rfl⟩
  · rcases afterTx_cases (takeByte s) with ⟨-, h⟩ | ⟨-, -, h⟩ | ⟨-, -, -, h⟩ | ⟨-, -, -, h⟩ <;> simp [txStep, h]
  · rename_i b _
    rcases afterRx_cases (putByte b s) with ⟨-, h⟩ | ⟨-, h⟩ <;> simp [rxStep, h, readDone_fields]

/-- Every engine step a channel event can trigger, or none where it is not enabled (42 R87). -/
theorem channelEvent_cases (e : ChannelEvent) (s : State) :
    (s.phase ≠ e.enabledIn ∧ channelEvent e s = s) ∨
    (s.phase = .tx ∧ e = .acceptTx ∧ channelEvent e s = txStep s) ∨
    (s.phase = .tx ∧ e = .writeFault ∧ channelEvent e s = writeFailure s) ∨
    (∃ b, s.phase = .rx ∧ e = .deliver b ∧ channelEvent e s = rxStep b s) ∨
    (s.phase = .rx ∧ e = .readFault ∧ channelEvent e s = readFailure .channelReadError s) ∨
    (s.phase = .rx ∧ e = .timeout ∧ channelEvent e s = readFailure .channelTimeout s) := by
  cases hp : s.phase <;> cases e <;> simp [channelEvent, hp, ChannelEvent.enabledIn]

end Sys2Proof.Machine
end

