-- ==== Sys2Proof/Laws/Step.lean ====
section
/-! SUPPORT. The laws of the bus and of the step: which accesses are valid, what each kind of access does, and one
inversion lemma that lists every way a step can answer a next state. -/

namespace Sys2Proof.Machine

/-! ### The bus -/

theorem checkAccess_ok {p : Params} {size : AccessSize} {addr off : Nat} :
    checkAccess p size addr = .ok off ↔
      size = 4 ∧ p.base ≤ addr ∧ addr < p.base + windowBytes ∧ (addr - p.base) % 4 = 0 ∧ off = addr - p.base := by
  unfold checkAccess
  split
  · simp; omega
  · split
    · rename_i h1 h2
      simp only [reduceCtorEq, false_iff]
      rintro ⟨hs, -, -, hm, -⟩
      rcases h2 with h2 | h2
      · exact h2 hs
      · exact h2 hm
    · rename_i h1 h2
      simp only [not_or, Decidable.not_not] at h2
      simp only [Except.ok.injEq]
      constructor
      · rintro rfl; exact ⟨h2.1, by omega, by omega, h2.2, rfl⟩
      · rintro ⟨-, -, -, -, rfl⟩; rfl

theorem checkAccess_word {p : Params} {off : Nat} (h4 : off % 4 = 0) (hw : off < windowBytes) :
    checkAccess p 4 (p.base + off) = .ok off :=
  checkAccess_ok.mpr ⟨rfl, by omega, by omega, by omega, by omega⟩

theorem read_valid {p : Params} {size : AccessSize} {addr : Nat} :
    HostAccess.valid p (.read size addr) = true ↔ checkAccess p size addr = .ok (addr - p.base) := by
  rw [checkAccess_ok]; simp [HostAccess.valid]; tauto

theorem write_valid {p : Params} {size : AccessSize} {addr : Nat} {v : Word} :
    HostAccess.valid p (.write size addr v) = true ↔ checkAccess p size addr = .ok (addr - p.base) := by
  rw [checkAccess_ok]; simp [HostAccess.valid]; tauto

theorem hostAccess_read {s : State} {size : AccessSize} {addr off : Nat}
    (h : checkAccess s.params size addr = .ok off) :
    hostAccess (.read size addr) s = .next (respond (.readData (readTarget (targetOf off) s)) s) := by
  simp [hostAccess, h]

theorem hostAccess_write {s : State} {size : AccessSize} {addr off : Nat} {v : Word}
    (h : checkAccess s.params size addr = .ok off) :
    hostAccess (.write size addr v) s = hostWrite (targetOf off) v (respond .writeOk s) := by
  simp [hostAccess, h]

theorem hostWrite_cmd (v : Word) (s : State) : hostWrite (.reg .cmd) v s = exec (decodeCmd v) s := by simp [hostWrite]

theorem hostWrite_busy {t : Target} {v : Word} {s : State} (h : s.phase ≠ .idle) :
    hostWrite t v s = .next (dropWrite s) := by
  unfold hostWrite
  split
  · exact exec_busy h
  · rfl

theorem hostWrite_idle {t : Target} {v : Word} {s : State} (ht : t ≠ .reg .cmd) (h : s.phase = .idle) :
    hostWrite t v s = .next (writeTarget t v s) := by simp [hostWrite, ht, h]

theorem regAt_cmd {off : Nat} (h : regAt off = some .cmd) : off = 0 := by
  unfold regAt at h
  split at h <;> first | rfl | (cases h)

/-- Only offset 0 names CMD (20 R41). -/
theorem targetOf_cmd {off : Nat} (h : targetOf off = .reg .cmd) : off = 0 := by
  unfold targetOf at h
  split at h
  · split at h
    · rename_i r hr
      injection h with h
      exact regAt_cmd (h ▸ hr)
    · cases h
  · split at h
    · cases h
    · split at h
      · cases h
      · split at h <;> cases h

theorem targetOf_zero : targetOf 0 = .reg .cmd := rfl

/-- Writing a target that holds no storage for the host changes nothing; the only fields any write changes are the
writable registers and the memory. -/
theorem writeTarget_fields (t : Target) (v : Word) (s : State) :
    (writeTarget t v s).params = s.params ∧ (writeTarget t v s).phase = s.phase ∧
    (writeTarget t v s).curop = s.curop ∧ (writeTarget t v s).err = s.err ∧ (writeTarget t v s).lastop = s.lastop ∧
    (writeTarget t v s).dropped = s.dropped ∧ (writeTarget t v s).rx = s.rx ∧ (writeTarget t v s).txCnt = s.txCnt ∧
    (writeTarget t v s).rxCnt = s.rxCnt ∧ (writeTarget t v s).inputs = s.inputs ∧
    (writeTarget t v s).response = s.response ∧ (writeTarget t v s).sent = s.sent := by
  cases t with
  | reg r => cases r <;> simp [writeTarget, writeReg]
  | reserved => simp [writeTarget]
  | entry b i => simp only [writeTarget]; split <;> simp

theorem writeTarget_mem (t : Target) (v : Word) (s : State) :
    (writeTarget t v s).mem = s.mem ∨
    ∃ b i, b.hostWritable = true ∧ t = .entry b i ∧
      (writeTarget t v s).mem = storeEntry s.params b i (v.extractLsb' 0 8) s.mem := by
  cases t with
  | reg r => left; cases r <;> rfl
  | reserved => exact .inl rfl
  | entry b i =>
    simp only [writeTarget]
    split
    · exact .inr ⟨b, i, ‹_›, rfl, rfl⟩
    · exact .inl rfl

/-! ### The step -/

theorem step_nil {s : State} (h : s.inputs = []) : step s = .next s := by simp [step, h]

theorem step_cons {s : State} {i : Input} {rest : List Input} (h : s.inputs = i :: rest) :
    step s = applyInput i (schedule rest s) := by simp [step, h]

theorem applyInput_cmdWrite (w : Word) (s : State) :
    applyInput (cmdWrite s.params w) s = exec (decodeCmd w) (respond .writeOk s) := by
  have h := checkAccess_word (p := s.params) (off := 0) rfl (by decide)
  exact (hostAccess_write (v := w) h).trans (hostWrite_cmd w _)

/-- The step that takes a CMD write is exec of the decoded command. -/
theorem step_cmdWrite {s : State} {w : Word} {rest : List Input} (h : s.inputs = cmdWrite s.params w :: rest) :
    step s = exec (decodeCmd w) (respond .writeOk (schedule rest s)) := by
  rw [step_cons h]; exact applyInput_cmdWrite w (schedule rest s)

/-- A valid read is served in any phase. -/
theorem step_read {s : State} {addr off : Nat} {size : AccessSize} {rest : List Input}
    (h : s.inputs = .host (.read size addr) :: rest) (hc : checkAccess s.params size addr = .ok off) :
    step s = .next (respond (.readData (readTarget (targetOf off) s)) (schedule rest s)) := by
  rw [step_cons h]
  refine (hostAccess_read (s := schedule rest s) hc).trans ?_
  congr 3

/-- A valid write while busy is dropped. -/
theorem step_write_busy {s : State} {addr off : Nat} {size : AccessSize} {v : Word} {rest : List Input}
    (h : s.inputs = .host (.write size addr v) :: rest) (hc : checkAccess s.params size addr = .ok off)
    (hp : s.phase ≠ .idle) : step s = .next (dropWrite (respond .writeOk (schedule rest s))) := by
  rw [step_cons h]
  exact (hostAccess_write (s := schedule rest s) hc).trans (hostWrite_busy hp)

/-- A valid write when idle, to anything but CMD, stores. -/
theorem step_write_idle {s : State} {addr off : Nat} {size : AccessSize} {v : Word} {t : Target} {rest : List Input}
    (h : s.inputs = .host (.write size addr v) :: rest) (hc : checkAccess s.params size addr = .ok off)
    (hp : s.phase = .idle) (ht : targetOf off = t) (hne : t ≠ .reg .cmd) :
    step s = .next (writeTarget t v (respond .writeOk (schedule rest s))) := by
  rw [step_cons h]
  refine (hostAccess_write (s := schedule rest s) hc).trans ?_
  rw [ht]
  exact hostWrite_idle hne hp

/-- A command accepted when idle. -/
theorem step_cmd_idle {s : State} {w : Word} {rest : List Input} (h : s.inputs = cmdWrite s.params w :: rest)
    (hp : s.phase = .idle) :
    step s = .next (bodyOf (decodeCmd w) (accept (opOf (decodeCmd w)) (respond .writeOk (schedule rest s)))) := by
  rw [step_cmdWrite h]
  exact exec_idle hp

theorem step_channel {s : State} {e : ChannelEvent} {rest : List Input} (h : s.inputs = .channel e :: rest) :
    step s = .next (channelEvent e (schedule rest s)) := step_cons h

theorem step_reset {s : State} {rest : List Input} (h : s.inputs = .reset :: rest) :
    step s = .next (resetBlock (schedule rest s)) := step_cons h

/-- A step answers a next state, or a fault for a host access that is not valid; it never refuses. -/
theorem step_outcome (s : State) :
    (∃ t, step s = .next t) ∨
    ∃ f a rest, s.inputs = .host a :: rest ∧ a.valid s.params = false ∧ step s = .fault f := by
  cases hi : s.inputs with
  | nil => exact .inl ⟨s, step_nil hi⟩
  | cons i rest =>
    cases i with
    | channel e => exact .inl ⟨_, step_channel hi⟩
    | reset => exact .inl ⟨_, step_reset hi⟩
    | host a =>
      cases a with
      | read size addr =>
        cases hc : checkAccess s.params size addr with
        | ok off => exact .inl ⟨_, step_read hi hc⟩
        | error f =>
          refine .inr ⟨f, _, rest, rfl, ?_, by rw [step_cons hi]; simp [applyInput, hostAccess, hc]⟩
          rw [Bool.eq_false_iff]; intro h; rw [read_valid.mp h] at hc; cases hc
      | write size addr v =>
        cases hc : checkAccess s.params size addr with
        | ok off =>
          left
          rw [step_cons hi, applyInput, hostAccess_write (s := schedule rest s) hc, hostWrite]
          split
          · exact ⟨_, exec_eq _ _⟩
          · exact ⟨_, rfl⟩
        | error f =>
          refine .inr ⟨f, _, rest, rfl, ?_, by rw [step_cons hi]; simp [applyInput, hostAccess, hc]⟩
          rw [Bool.eq_false_iff]; intro h; rw [write_valid.mp h] at hc; cases hc

/-- Every way a step answers a next state: nothing scheduled; a read; a write dropped; a write stored; a command
accepted; a channel event; a reset. -/
theorem step_next_cases {s t : State} (h : step s = .next t) :
    (s.inputs = [] ∧ t = s) ∨
    ∃ i rest, s.inputs = i :: rest ∧
      ((∃ addr d, i = .host (.read 4 addr) ∧ t = respond (.readData d) (schedule rest s)) ∨
       (∃ addr v, i = .host (.write 4 addr v) ∧ s.phase ≠ .idle ∧
          t = dropWrite (respond .writeOk (schedule rest s))) ∨
       (∃ addr v, i = .host (.write 4 addr v) ∧ s.phase = .idle ∧ addr ≠ s.params.base ∧
          t = writeTarget (targetOf (addr - s.params.base)) v (respond .writeOk (schedule rest s))) ∨
       (∃ w, i = cmdWrite s.params w ∧ s.phase = .idle ∧
          t = bodyOf (decodeCmd w) (accept (opOf (decodeCmd w)) (respond .writeOk (schedule rest s)))) ∨
       (∃ e, i = .channel e ∧ t = channelEvent e (schedule rest s)) ∨
       (i = .reset ∧ t = resetBlock (schedule rest s))) := by
  cases hi : s.inputs with
  | nil => rw [step_nil hi] at h; injection h with h; exact .inl ⟨rfl, h.symm⟩
  | cons i rest =>
    refine .inr ⟨i, rest, rfl, ?_⟩
    rw [step_cons hi] at h
    cases i with
    | channel e => injection h with h; exact .inr (.inr (.inr (.inr (.inl ⟨e, rfl, h.symm⟩))))
    | reset => injection h with h; exact .inr (.inr (.inr (.inr (.inr ⟨rfl, h.symm⟩))))
    | host a =>
      cases a with
      | read size addr =>
        cases hc : checkAccess s.params size addr with
        | error f => simp [applyInput, hostAccess, hc] at h
        | ok off =>
          obtain ⟨rfl, -⟩ := checkAccess_ok.mp hc
          rw [applyInput, hostAccess_read (s := schedule rest s) hc] at h
          injection h with h
          exact .inl ⟨addr, _, rfl, h.symm⟩
      | write size addr v =>
        cases hc : checkAccess s.params size addr with
        | error f => simp [applyInput, hostAccess, hc] at h
        | ok off =>
          obtain ⟨rfl, hlo, hhi, hal, rfl⟩ := checkAccess_ok.mp hc
          rw [applyInput, hostAccess_write (s := schedule rest s) hc] at h
          by_cases hp : s.phase = .idle
          · by_cases ht : targetOf (addr - s.params.base) = .reg .cmd
            · have h0 := targetOf_cmd ht
              rw [ht, hostWrite_cmd, exec_idle (show (respond .writeOk (schedule rest s)).phase = .idle from hp)] at h
              injection h with h
              refine .inr (.inr (.inr (.inl ⟨v, ?_, hp, h.symm⟩)))
              rw [cmdWrite, show addr = s.params.base + Reg.cmd.offset by simp only [Reg.offset]; omega]
            · rw [hostWrite_idle ht (show (respond .writeOk (schedule rest s)).phase = .idle from hp)] at h
              injection h with h
              refine .inr (.inr (.inl ⟨addr, v, rfl, hp, ?_, h.symm⟩))
              rintro rfl
              simp [targetOf_zero] at ht
          · rw [hostWrite_busy (show (respond .writeOk (schedule rest s)).phase ≠ .idle from hp)] at h
            injection h with h
            exact .inr (.inl ⟨addr, v, rfl, hp, h.symm⟩)

/-- A step consumes one input and keeps the parameters. -/
theorem step_inputs {s t : State} (h : step s = .next t) : t.inputs = s.inputs.tail ∧ t.params = s.params := by
  rcases step_next_cases h with ⟨h0, rfl⟩ | ⟨i, rest, hi, hc⟩
  · simp [h0]
  · rw [hi]
    rcases hc with ⟨_, _, -, rfl⟩ | ⟨_, _, -, -, rfl⟩ | ⟨_, _, -, -, -, rfl⟩ | ⟨_, -, -, rfl⟩ | ⟨_, -, rfl⟩ | ⟨-, rfl⟩ <;>
    simp [writeTarget_fields, bodyOf_fields, channelEvent_fields]

/-! ### Runs -/

theorem run_zero (s : State) : Sys2Proof.core.run 0 s = .next s := rfl

/-- A run whose first step answers `t` goes on from `t`. -/
theorem run_succ {n : Nat} {s t : State} (h : step s = .next t) :
    Sys2Proof.core.run (n + 1) s = Sys2Proof.core.run n t := by
  have hc : Sys2Proof.core.step s = .next t := h
  simp [Host.Core.run, hc]

/-- Two runs one after the other. -/
theorem run_add {n m : Nat} {s t : State} (h : Sys2Proof.core.run n s = .next t) :
    Sys2Proof.core.run (n + m) s = Sys2Proof.core.run m t := by
  induction n generalizing s with
  | zero => rw [run_zero] at h; injection h with h; rw [Nat.zero_add, h]
  | succ k ih =>
    rw [show k + 1 + m = k + m + 1 by omega]
    cases hs : step s with
    | next u => rw [run_succ hs] at h ⊢; exact ih h
    | fault f => have hc : Sys2Proof.core.step s = _ := hs; simp [Host.Core.run, hc] at h
    | refused r => have hc : Sys2Proof.core.step s = _ := hs; simp [Host.Core.run, hc] at h

end Sys2Proof.Machine
end

