-- ==== Sys2Proof/Laws/Encoding.lean ====
section
/-! SUPPORT. The bits of the command word: which bits the encoder lays down, and that nibbles and commands stand one
to one. -/

namespace Sys2Proof

/-- Bit `j` of an encoded word: the command's nibble below bit 4, the ignored bits above. -/
theorem encodeWith_getLsbD (hi : BitVec 28) (i : Instr) (j : Nat) :
    (encodeWith hi i).getLsbD j = if j < 4 then (nibbleOf i).getLsbD j else hi.getLsbD (j - 4) :=
  BitVec.getLsbD_append (x := hi) (y := nibbleOf i)

theorem cmdNibble_getLsbD (w : Word) (j : Nat) : (cmdNibble w).getLsbD j = (decide (j < 4) && w.getLsbD j) := by
  simp [cmdNibble]

theorem cmdNibble_encodeWith (hi : BitVec 28) (i : Instr) : cmdNibble (encodeWith hi i) = nibbleOf i := by
  apply BitVec.eq_of_getLsbD_eq
  intro j hj
  rw [cmdNibble_getLsbD, encodeWith_getLsbD]
  simp [hj]

theorem decodeNibble_nibbleOf (i : Instr) : decodeNibble (nibbleOf i) = i := by cases i <;> decide

theorem nibbleOf_decodeNibble (n : BitVec 4) : nibbleOf (decodeNibble n) = n := by revert n; decide

end Sys2Proof
end

