-- ==== Sys2Proof/Laws/PerInstr.lean ====
section
/-! SUPPORT. The family Encoding: what holds of each command as syntax, its word and its row of the opcode table. -/

namespace Sys2Proof.Laws

/-- The command's own row is in the table, its word selects that row and no other, and decodes to the command. -/
def Encoding.Statement (i : Instr) : Prop :=
  (∃ r ∈ cmdRows, r.instr = i ∧ r.selects (encode i) = true) ∧
    (∀ r ∈ cmdRows, r.selects (encode i) = true → r.instr = i) ∧ decodeCmd (encode i) = i

theorem Encoding.encode : Encoding.Statement .encode := by unfold Encoding.Statement; decide
theorem Encoding.encodeS : Encoding.Statement .encodeS := by unfold Encoding.Statement; decide
theorem Encoding.decode : Encoding.Statement .decode := by unfold Encoding.Statement; decide
theorem Encoding.exchange : Encoding.Statement .exchange := by unfold Encoding.Statement; decide
theorem Encoding.exchangeS : Encoding.Statement .exchangeS := by unfold Encoding.Statement; decide
theorem Encoding.sendOnly : Encoding.Statement .sendOnly := by unfold Encoding.Statement; decide
theorem Encoding.illegal0 : Encoding.Statement .illegal0 := by unfold Encoding.Statement; decide
theorem Encoding.illegal5 : Encoding.Statement .illegal5 := by unfold Encoding.Statement; decide
theorem Encoding.illegal6 : Encoding.Statement .illegal6 := by unfold Encoding.Statement; decide
theorem Encoding.illegal7 : Encoding.Statement .illegal7 := by unfold Encoding.Statement; decide
theorem Encoding.illegal8 : Encoding.Statement .illegal8 := by unfold Encoding.Statement; decide
theorem Encoding.illegalA : Encoding.Statement .illegalA := by unfold Encoding.Statement; decide
theorem Encoding.illegalC : Encoding.Statement .illegalC := by unfold Encoding.Statement; decide
theorem Encoding.illegalD : Encoding.Statement .illegalD := by unfold Encoding.Statement; decide
theorem Encoding.illegalE : Encoding.Statement .illegalE := by unfold Encoding.Statement; decide
theorem Encoding.illegalF : Encoding.Statement .illegalF := by unfold Encoding.Statement; decide

end Sys2Proof.Laws
end

