-- ==== Sys2Proof/Tests/Slice0.lean ====
section
/-! SUPPORT. The model's own tests. Every expected value is taken from spec/95_test_vectors.md (the vector is named) or
worked out by hand from the rule named; and for every obligation with hypotheses a concrete state that meets them
all. -/

namespace Sys2Proof.Tests

open Sys2Proof Sys2Proof.Machine

/-! ### Helpers -/

/-- The state an outcome answers, if it answers one. -/
def nextOf (o : Host.Outcome State Fault Refusal) : Option State :=
  match o with
  | .next s => some s
  | .fault _ => none
  | .refused _ => none

/-- The fault an outcome answers, if it answers one. -/
def faultOf (o : Host.Outcome State Fault Refusal) : Option Fault :=
  match o with
  | .next _ => none
  | .fault f => some f
  | .refused _ => none

/-- A value of the state an outcome answers. -/
def after {α : Type} (o : Host.Outcome State Fault Refusal) (f : State → α) : Option α := (nextOf o).map f

/-- The block after reset with its transmit registers written. -/
def withTx (attn ttl dlen pid plen : Word) : State := { State.reset with tx := ⟨attn, ttl, dlen, pid, plen⟩ }

/-- The block after reset with three bytes in RXRAW and a received length (vectors D1 to D12). -/
def withRaw (len : Word) : State :=
  { State.reset with rxrawLen := len, mem := [(0xC00, 0x12), (0xC04, 0x34), (0xC08, 0x56)] }

/-- The start of the fixture of vector L1-1. -/
def fixture : State := { withTx 0xF 2 4 4 4 with mem := [(0x40C, 0x05)] }

/-- The start of the vectors X1 to X17: header 10 08. -/
def exchangeStart (plen size : Word) : State := { withTx 1 0 0 2 plen with replySize := size }

/-- The start of the vectors S1 to S6. -/
def sendStart (len : Word) : State :=
  { State.reset with txrawLen := len, mem := [(0x800, 0x55), (0x804, 0xAA), (0x808, 0x0F)] }

/-- A SEND_ONLY in phase TX after `cnt` bytes (vectors S1 to S3). -/
def sending (cnt : Word) : State :=
  { sendStart 3 with phase := .tx, curop := .sendOnly, lastop := 0b100, txCnt := cnt }

/-- An exchange in phase TX after `cnt` bytes of its frame 10 08. -/
def requesting (size cnt : Word) : State :=
  { exchangeStart 0 size with
    phase := .tx, curop := .exchange, lastop := 0b011, txrawLen := 2, txCnt := cnt,
    mem := [(0x800, 0x10), (0x804, 0x08)] }

/-- An exchange in phase RX after `cnt` reply bytes, of which it holds the bytes 26 88 01. -/
def receiving (size cnt : Word) : State :=
  { requesting size 2 with
    phase := .rx, rxCnt := cnt,
    mem := [(0x800, 0x10), (0x804, 0x08), (0xC00, 0x26), (0xC04, 0x88), (0xC08, 0x01)] }

/-- A state about to take one input. -/
def taking (s : State) (i : Input) : State := schedule [i] s

/-- One step that takes a host write of a register. -/
def writing (s : State) (off : Nat) (v : Word) : State := taking s (writeAt s.params off v)

/-- One step that takes a host read. -/
def reading (s : State) (off : Nat) : State := taking s (readAt s.params off)

/-! ### What WellFormed refuses -/

theorem test_wellFormed_standard : Params.standard.wellFormed = true := by decide
/-- 00 R2: BUF_BYTES is at least 12. -/
theorem test_wellFormed_refuses_small : Params.wellFormed ⟨11, 0⟩ = false := by decide
/-- 00 R2: BUF_BYTES is at most 256. -/
theorem test_wellFormed_refuses_large : Params.wellFormed ⟨257, 0⟩ = false := by decide
/-- 00 R3: BASE is a multiple of 0x2000. -/
theorem test_wellFormed_refuses_base : Params.wellFormed ⟨64, 0x1000⟩ = false := by decide
/-- 10 R35: the host writes no entry of RXPAY. -/
theorem test_wellFormed_refuses_rxpay : (HostLine.wrEntry .rxpay 0 1).wellFormed = false := by decide
/-- 20 R41: a window has 256 entries. -/
theorem test_wellFormed_refuses_write_index : (HostLine.wrEntry .txpay 256 1).wellFormed = false := by decide
theorem test_wellFormed_refuses_read_index : (HostLine.rdEntry .rxpay 256).wellFormed = false := by decide
theorem test_wellFormed_refuses_long_load :
    ∀ bs : List Byte, bs.length = 257 → (HostLine.load bs).wellFormed = false := by
  intro bs h
  simp [HostLine.wellFormed, h]

/-! ### Decoding: words written out bit by bit from 30 R61 to R63, bits 31:4 zero unless a vector says otherwise -/

theorem test_decode_codec :
    decodeCmd 0b00000000000000000000000000000001#32 = .encode ∧
    decodeCmd 0b00000000000000000000000000001001#32 = .encodeS ∧
    decodeCmd 0b00000000000000000000000000000010#32 = .decode := by decide

theorem test_decode_channel :
    decodeCmd 0b00000000000000000000000000000011#32 = .exchange ∧
    decodeCmd 0b00000000000000000000000000001011#32 = .exchangeS ∧
    decodeCmd 0b00000000000000000000000000000100#32 = .sendOnly := by decide

theorem test_decode_reserved :
    decodeCmd 0b00000000000000000000000000000000#32 = .illegal0 ∧
    decodeCmd 0b00000000000000000000000000000101#32 = .illegal5 ∧
    decodeCmd 0b00000000000000000000000000000110#32 = .illegal6 ∧
    decodeCmd 0b00000000000000000000000000000111#32 = .illegal7 ∧
    decodeCmd 0b00000000000000000000000000001000#32 = .illegal8 ∧
    decodeCmd 0b00000000000000000000000000001010#32 = .illegalA ∧
    decodeCmd 0b00000000000000000000000000001100#32 = .illegalC ∧
    decodeCmd 0b00000000000000000000000000001101#32 = .illegalD ∧
    decodeCmd 0b00000000000000000000000000001110#32 = .illegalE ∧
    decodeCmd 0b00000000000000000000000000001111#32 = .illegalF := by decide

/-- The table word reader: 30 R61 numbers one 32-bit word; a longer string or a larger value is no command word. -/
theorem test_decodeTableWord :
    decodeTableWord 32 0x0000000B = some .exchangeS ∧ decodeTableWord 8 0x09 = some .encodeS ∧
    decodeTableWord 33 1 = none ∧ decodeTableWord 32 (2 ^ 32) = none := by decide

/-- 41 R76, 95 section 2.1: the straddling field and the fixture. -/
theorem test_pack : pack ⟨0, 0, 1, 0⟩ = 0x0080 ∧ pack ⟨15, 2, 4, 4⟩ = 0xFA10 ∧ pack ⟨3, 2, 6, 17⟩ = 0x3B44 := by decide

/-- 41 R77, 95 section 2.2: reserved bits ignored, and the printed header F2 84. -/
theorem test_unpack :
    unpack 0xA5 0x5A = ⟨10, 1, 2, 22⟩ ∧ unpack 0x01 0x7F = ⟨0, 0, 2, 31⟩ ∧ unpack 0xF2 0x84 = ⟨15, 0, 5, 1⟩ := by decide

/-! ### Commands, at most two each -/

/-- L1-1. -/
theorem test_encode_fixture :
    after (exec .encode fixture) (fun t => (t.status, t.txrawLen, t.mem)) =
      some (0x00001000, 6, [(0x40C, 0x05), (0x800, 0xFA), (0x804, 0x10), (0x814, 0x05)]) := by decide

/-- E5: no wrap of 2 + TX_PLEN. -/
theorem test_encode_bad_length :
    after (exec .encode (withTx 0 0 0 0 0xFFFFFFFF)) (fun t => (t.status, t.txrawLen)) = some (0x00001700, 0) := by decide

/-- E10: 0x20 would mask to a legal 0. -/
theorem test_encodeS_out_of_range :
    after (exec .encodeS (withTx 0 0 0 32 0)) (fun t => (t.status, t.txrawLen)) = some (0x00001100, 0) := by decide

/-- E6: all boundaries legal. -/
theorem test_encodeS_boundaries :
    after (exec .encodeS (withTx 15 3 7 31 0)) (fun t => (t.status, t.txrawLen, t.mem)) =
      some (0x00001000, 2, [(0x800, 0xFF), (0x804, 0xFC)]) := by decide

/-- D5. -/
theorem test_decode_three_bytes :
    after (exec .decode (withRaw 3)) (fun t => (t.status, t.rx, t.entry .rxpay 0)) =
      some (0x00002000, ⟨1, 0, 4, 13, 1⟩, 0x56) := by decide

/-- D11: BAD_LENGTH before FRAME_TOO_SHORT. -/
theorem test_decode_bad_length :
    after (exec .decode (withRaw 0xFFFFFFFF)) (fun t => (t.status, t.rx)) = some (0x00002700, ⟨0, 0, 0, 0, 0⟩) := by decide

/-- X1, after the CMD write: the frame stands in TXRAW and phase TX is entered. -/
theorem test_exchange_accepted :
    after (exec .exchange (exchangeStart 0 12)) (fun t => (t.status, t.txrawLen, t.mem, t.offered)) =
      some (0x00003003, 2, [(0x800, 0x10), (0x804, 0x08)], some 0x10) := by decide

/-- X11: TXRAW is not touched. -/
theorem test_exchange_bad_reply_size :
    after (exec .exchange (exchangeStart 0 65)) (fun t => (t.status, t.txrawLen, t.mem)) = some (0x00003700, 0, []) := by decide

/-- X13. -/
theorem test_exchangeS_out_of_range :
    after (exec .exchangeS (withTx 1 0 0 32 0)) (fun t => (t.status, t.mem)) = some (0x00003100, []) := by decide

/-- X14: BAD_LENGTH wins. -/
theorem test_exchangeS_bad_length_first :
    after (exec .exchangeS { withTx 1 0 0 32 0 with replySize := 100 }) (fun t => t.status) = some 0x00003700 := by decide

/-- S2. -/
theorem test_sendOnly_accepted :
    after (exec .sendOnly (sendStart 3)) (fun t => (t.status, t.txCnt, t.offered)) = some (0x00004003, 0, some 0x55) := by decide

/-- S4: nothing to send. -/
theorem test_sendOnly_empty : after (exec .sendOnly (sendStart 0)) (fun t => t.status) = some 0x00004000 := by decide

/-- C1. -/
theorem test_illegal0 : after (exec .illegal0 State.reset) (fun t => t.status) = some 0x00000800 := by decide
/-- C2. -/
theorem test_illegal5 : after (exec .illegal5 State.reset) (fun t => t.status) = some 0x00005800 := by decide
/-- C3. -/
theorem test_illegal6 : after (exec .illegal6 State.reset) (fun t => t.status) = some 0x00006800 := by decide
/-- C4. -/
theorem test_illegal7 : after (exec .illegal7 State.reset) (fun t => t.status) = some 0x00007800 := by decide
/-- C5. -/
theorem test_illegal8 : after (exec .illegal8 State.reset) (fun t => t.status) = some 0x00000800 := by decide
/-- C6. -/
theorem test_illegalA : after (exec .illegalA State.reset) (fun t => t.status) = some 0x00002800 := by decide
/-- C7. -/
theorem test_illegalC : after (exec .illegalC State.reset) (fun t => t.status) = some 0x00004800 := by decide
/-- C8. -/
theorem test_illegalD : after (exec .illegalD State.reset) (fun t => t.status) = some 0x00005800 := by decide
/-- C8. -/
theorem test_illegalE : after (exec .illegalE State.reset) (fun t => t.status) = some 0x00006800 := by decide
/-- C8. -/
theorem test_illegalF : after (exec .illegalF State.reset) (fun t => t.status) = some 0x00007800 := by decide

/-! ### The step, the busy rule, the bus -/

/-- C9: bits 31:4 are ignored. -/
theorem test_step_ignored_bits :
    after (step (State.reset.withFetchWord 32 0xFFFFFFF1)) (fun t => (t.status, t.txrawLen)) = some (0x00001000, 2) := by decide

/-- C10: the low nibble is 0. -/
theorem test_step_low_nibble_zero :
    after (step (State.reset.withFetchWord 32 0x00000010)) (fun t => t.status) = some 0x00000800 := by decide

/-- C12: a register write while busy is dropped. -/
theorem test_write_dropped :
    after (step (writing (requesting 12 0) 0x008 7)) (fun t => (t.status, t.tx.attn)) = some (0x00013003, 1) := by decide

/-- C13: a command while busy is not accepted. -/
theorem test_command_dropped :
    after (step ((requesting 12 0).withFetchWord 32 1)) (fun t => t.status) = some 0x00013003 := by decide

/-- C16 and 10 R12: CMD reads 0. -/
theorem test_read_cmd :
    after (step (reading (withTx 1 1 1 1 1) 0x000)) (fun t => t.response) = some (some (.readData 0)) := by decide

/-- B1. -/
theorem test_narrow_write :
    faultOf (step (taking State.reset (.host (.write 1 0 1)))) = some .busError := by decide
/-- B2. -/
theorem test_narrow_read : faultOf (step (taking State.reset (.host (.read 2 4)))) = some .busError := by decide
/-- 20 R37: an aligned access of 8 bytes does not meet R38 either. -/
theorem test_wide_write : faultOf (step (taking State.reset (.host (.write 8 0 1)))) = some .busError := by decide
/-- B3. -/
theorem test_misaligned_write :
    faultOf (step (taking State.reset (.host (.write 4 2 1)))) = some .busError := by decide
/-- 20 R36: the first address above the window. -/
theorem test_above_window :
    faultOf (step (taking State.reset (.host (.read 4 0x1400)))) = some .outsideWindow := by decide

/-- B4: only bits 7:0 are stored. -/
theorem test_entry_write :
    after (step (writing State.reset 0x400 0x123)) (fun t => t.mem) = some [(0x400, 0x23)] := by decide
theorem test_entry_read :
    after (step (reading (withRaw 3) 0xC04)) (fun t => t.response) = some (some (.readData 0x00000034)) := by decide
/-- B5: a read-only register. -/
theorem test_read_only_register :
    after (step (writing State.reset 0x040 5)) (fun t => t.rxCnt) = some 0 := by decide
/-- B6: a reserved offset. -/
theorem test_reserved_offset :
    after (step (reading (withTx 1 1 1 1 1) 0x044)) (fun t => t.response) = some (some (.readData 0)) := by decide
/-- B7: no storage at index 64. -/
theorem test_no_storage :
    after (step (reading State.reset 0x500)) (fun t => t.response) = some (some (.readData 0)) := by decide
/-- B8: the host cannot write RXPAY. -/
theorem test_rxpay_write : after (step (writing State.reset 0x1000 0x55)) (fun t => t.mem) = some [] := by decide
/-- B9: a transmit register is stored in full. -/
theorem test_register_write :
    after (step (writing State.reset 0x014 0xFFFFFFFF)) (fun t => t.tx.pid) = some 0xFFFFFFFF := by decide

/-- T3: a reset while busy. -/
theorem test_reset_busy :
    after (step (taking (receiving 12 6) .reset)) (fun t => (t.status, t.txCnt, t.rxCnt, t.replySize, t.mem.length)) =
      some (0, 0, 0, 12, 5) := by decide

/-! ### Engine steps -/

/-- X1: the second accept ends the transmit phase. -/
theorem test_accept_last :
    after (step (taking (requesting 12 1) (.channel .acceptTx))) (fun t => (t.status, t.txCnt, t.sent)) =
      some (0x00003005, 2, [0x08]) := by decide
/-- X7: REPLY_SIZE 0. -/
theorem test_accept_no_reply :
    after (step (taking (requesting 0 1) (.channel .acceptTx))) (fun t => (t.status, t.rxrawLen)) =
      some (0x00003600, 0) := by decide
/-- S1: the third accept completes. -/
theorem test_accept_send_only :
    after (step (taking (sending 2) (.channel .acceptTx))) (fun t => (t.status, t.txCnt, t.sent)) =
      some (0x00004000, 3, [0x0F]) := by decide
/-- X2: a write failure after one byte. -/
theorem test_write_fault :
    after (step (taking (requesting 12 1) (.channel .writeFault))) (fun t => (t.status, t.txCnt)) =
      some (0x00003300, 1) := by decide
/-- 42 R93, R94: the last of four reply bytes 26 88 01 0A. -/
theorem test_deliver_last :
    after (step (taking (receiving 4 3) (.channel (.deliver 0x0A))))
        (fun t => (t.status, t.rxrawLen, t.rx, t.entry .rxpay 0, t.entry .rxpay 1)) =
      some (0x00003000, 4, ⟨2, 1, 5, 2, 2⟩, 0x01, 0x0A) := by decide
/-- X8: a reply of one byte. -/
theorem test_deliver_short :
    after (step (taking (receiving 1 0) (.channel (.deliver 0x99))))
        (fun t => (t.status, t.rxCnt, t.rxrawLen, t.entry .rxraw 0, t.rx)) =
      some (0x00003600, 1, 1, 0x99, ⟨0, 0, 0, 0, 0⟩) := by decide
/-- X4: a read failure after three bytes. -/
theorem test_read_fault :
    after (step (taking (receiving 12 3) (.channel .readFault))) (fun t => (t.status, t.rxCnt, t.rxrawLen)) =
      some (0x00003400, 3, 0) := by decide
/-- X5: a timeout after five bytes. -/
theorem test_timeout :
    after (step (taking (receiving 12 5) (.channel .timeout))) (fun t => (t.status, t.rxCnt, t.rxrawLen)) =
      some (0x00003500, 5, 0) := by decide
/-- 42 R87: a delivered byte in phase TX is not enabled (log 3). -/
theorem test_deliver_not_enabled :
    after (step (taking (sending 1) (.channel (.deliver 7)))) (fun t => (t.status, t.rxCnt, t.mem.length)) =
      some (0x00004003, 0, 3) := by decide

/-! ### States that meet the invariant -/

/-- An idle block with the standard parameters meets the invariant when its memory is canonical and its counters are
in range. -/
theorem inv_idle {s : State} (hp : s.phase = .idle) (hq : s.params = Params.standard)
    (hm : s.mem.legal Params.standard) (h1 : s.rx.plen.toNat ≤ 62) (h2 : s.txCnt.toNat ≤ 64) (h3 : s.rxCnt.toNat ≤ 64) :
    s.Inv where
  params := by rw [hq]; decide
  mem := by rw [hq]; exact hm
  rxPlen := by rw [hq]; exact h1
  txCnt := by rw [hq]; exact h2
  rxCnt := by rw [hq]; exact h3
  busyErr h := absurd hp h
  busyOp h := absurd hp h
  busyLen h := absurd hp h
  busyReply h := absurd hp h
  txLeft h := by rw [hp] at h; cases h
  rxLeft h := by rw [hp] at h; cases h

theorem legal_nil (p : Params) : Memory.legal p [] := ⟨⟨.nil, by simp⟩, by simp⟩

theorem inv_withTx (a t d p l : Word) : (withTx a t d p l).Inv :=
  inv_idle rfl rfl (legal_nil _) (Nat.zero_le _) (Nat.zero_le _) (Nat.zero_le _)

theorem inv_exchangeStart (l r : Word) : (exchangeStart l r).Inv :=
  inv_idle rfl rfl (legal_nil _) (Nat.zero_le _) (Nat.zero_le _) (Nat.zero_le _)

theorem inv_fixture : fixture.Inv :=
  inv_idle rfl rfl ⟨by decide, by decide⟩ (Nat.zero_le _) (Nat.zero_le _) (Nat.zero_le _)

theorem inv_withRaw (l : Word) : (withRaw l).Inv := by
  have h : Memory.legal Params.standard [(0xC00, 0x12), (0xC04, 0x34), (0xC08, 0x56)] := ⟨by decide, by decide⟩
  exact inv_idle rfl rfl h (Nat.zero_le _) (Nat.zero_le _) (Nat.zero_le _)

theorem inv_sending_0 : (sending 0).Inv :=
  ⟨by decide, ⟨by decide, by decide⟩, by decide, by decide, by decide, by decide, by decide, by decide, by decide,
    by decide, by decide⟩

theorem inv_sending_2 : (sending 2).Inv :=
  ⟨by decide, ⟨by decide, by decide⟩, by decide, by decide, by decide, by decide, by decide, by decide, by decide,
    by decide, by decide⟩

theorem inv_requesting_12_0 : (requesting 12 0).Inv :=
  ⟨by decide, ⟨by decide, by decide⟩, by decide, by decide, by decide, by decide, by decide, by decide, by decide,
    by decide, by decide⟩

theorem inv_requesting_12_1 : (requesting 12 1).Inv :=
  ⟨by decide, ⟨by decide, by decide⟩, by decide, by decide, by decide, by decide, by decide, by decide, by decide,
    by decide, by decide⟩

theorem inv_requesting_0_1 : (requesting 0 1).Inv :=
  ⟨by decide, ⟨by decide, by decide⟩, by decide, by decide, by decide, by decide, by decide, by decide, by decide,
    by decide, by decide⟩

theorem inv_receiving_12_3 : (receiving 12 3).Inv :=
  ⟨by decide, ⟨by decide, by decide⟩, by decide, by decide, by decide, by decide, by decide, by decide, by decide,
    by decide, by decide⟩

theorem inv_receiving_64_63 : (receiving 64 63).Inv :=
  ⟨by decide, ⟨by decide, by decide⟩, by decide, by decide, by decide, by decide, by decide, by decide, by decide,
    by decide, by decide⟩

theorem inv_receiving_2_1 : (receiving 2 1).Inv :=
  ⟨by decide, ⟨by decide, by decide⟩, by decide, by decide, by decide, by decide, by decide, by decide, by decide,
    by decide, by decide⟩

theorem inv_receiving_1_0 : (receiving 1 0).Inv :=
  ⟨by decide, ⟨by decide, by decide⟩, by decide, by decide, by decide, by decide, by decide, by decide, by decide,
    by decide, by decide⟩

/-- The schedule is no part of the invariant. -/
theorem inv_schedule {s : State} (rest : List Input) (h : s.Inv) : (schedule rest s).Inv :=
  ⟨h.params, h.mem, h.rxPlen, h.txCnt, h.rxCnt, h.busyErr, h.busyOp, h.busyLen, h.busyReply, h.txLeft, h.rxLeft⟩

/-! ### Witnesses: for each obligation with hypotheses, states that meet them all, clause by clause -/

theorem wit_StepRunsTheDecodedCommand :
    (taking State.reset (cmdWrite Params.standard 1)).inputs = [cmdWrite State.reset.params 1] ∧
    decodeTableWord 32 1 = some .encode := by decide

theorem wit_NothingScheduledChangesNothing : (receiving 12 3).inputs = [] := rfl

theorem wit_AcceptanceEffectsOfEveryCommand : (withTx 1 2 3 4 5).phase = .idle := rfl

theorem wit_BusyBlockTurnsEveryCommandAway : (sending 0).phase ≠ .idle ∧ (receiving 12 3).phase ≠ .idle := by decide

theorem wit_BusyBlockDropsEveryWrite :
    (let s := writing (sending 0) 0x13FC 7
     s.phase ≠ .idle ∧ HostAccess.valid s.params (.write 4 0x13FC 7) = true ∧
       s.inputs = [.host (.write 4 0x13FC 7)]) ∧
    (let s := reading (sending 0) 0x004
     s.phase ≠ .idle ∧ HostAccess.valid s.params (.read 4 4) = true ∧ s.inputs = [.host (.read 4 4)]) := by
  decide

/-- One witness for each arm: a write while busy, a CMD write, another write, a read, a channel event, a reset. -/
theorem wit_DroppedFlagChangesOnlyByRule :
    (∃ t, step (writing (sending 0) 0x008 7) = .next t) ∧ (∃ t, step (writing State.reset 0x000 1) = .next t) ∧
    (∃ t, step (writing State.reset 0x008 7) = .next t) ∧ (∃ t, step (reading (sending 0) 0x004) = .next t) ∧
    (∃ t, step (taking (sending 0) (.channel .acceptTx)) = .next t) ∧ ∃ t, step (taking (sending 0) .reset) = .next t :=
  ⟨⟨_, rfl⟩, ⟨_, rfl⟩, ⟨_, rfl⟩, ⟨_, rfl⟩, ⟨_, rfl⟩, ⟨_, rfl⟩⟩

/-- The last byte of the window, narrow; the first word misaligned; 8 bytes, 3 bytes and none at the last word; and the
last word, a read and a write. -/
theorem wit_AccessOtherThanAnAlignedWordIsABusError :
    (taking State.reset (.host (.read 1 0x13FF))).inputs = [.host (.read 1 0x13FF)] ∧
    (taking State.reset (.host (.write 4 2 1))).inputs = [.host (.write 4 2 1)] ∧
    (∀ size ∈ [8, 3, 0],
      (taking State.reset (.host (.read size 0x13FC))).inputs = [.host (.read size 0x13FC)] ∧ size ≠ 4) ∧
    (taking State.reset (.host (.read 4 0x13FC))).inputs = [.host (.read 4 0x13FC)] ∧
    (taking State.reset (.host (.write 4 0x13FC 1))).inputs = [.host (.write 4 0x13FC 1)] ∧
    (0x13FC - State.reset.params.base) % 4 = 0 ∧
    State.reset.params.base ≤ 2 ∧ 0x13FF < State.reset.params.base + 0x1400 := by decide

/-- The first address above the window, and the last one below it. -/
theorem wit_AccessOutsideTheWindowIsNotDecoded :
    (taking State.reset (.host (.read 4 0x1400))).inputs = [.host (.read 4 0x1400)] ∧
    State.reset.params.base + 0x1400 ≤ 0x1400 ∧
    (let s := taking (State.powerOn ⟨64, 0x2000⟩ []) (.host (.write 4 0x1FFC 1))
     s.inputs = [.host (.write 4 0x1FFC 1)] ∧ 0x1FFC < s.params.base) := by decide

theorem wit_SafeSchedulesNeverStop :
    (writing (sending 0) 0x000 1).safe = true ∧
    step (taking State.reset (.host (.read 2 4))) = .fault .busError := ⟨by decide, rfl⟩

/-- The first and the last reserved offset, the last entry of a window. -/
theorem wit_OffsetDecodeFollowsTheMap :
    (0x44 ≤ 0x44 ∧ 0x44 < 0x400) ∧ (0x44 ≤ 0x3FC ∧ 0x3FC < 0x400) ∧ 255 < 256 ∧ 0x1000 + 4 * 255 = 0x13FC := by decide

/-- A single read of the last word of the window on an idle block; two reads of STATUS in a row on a busy one. -/
theorem wit_HostReadsHaveNoSideEffect :
    (HostAccess.valid State.reset.params (.read 4 0x13FC) = true ∧
      (reading State.reset 0x13FC).inputs = .host (.read 4 0x13FC) :: []) ∧
    HostAccess.valid (sending 0).params (.read 4 4) = true ∧
    (schedule [.host (.read 4 4), .host (.read 4 4)] (sending 0)).inputs =
      .host (.read 4 4) :: .host (.read 4 4) :: [] := by decide

theorem wit_ReadWriteRegistersStoreAllBits :
    ∀ r ∈ [Reg.txAttn, .txTtl, .txDlen, .txPid, .txPlen, .txrawLen, .rxrawLen, .replySize],
      (writing State.reset r.offset 5).phase = .idle ∧
      (writing State.reset r.offset 5).inputs = [writeAt State.reset.params r.offset 5] := by decide

/-- The last entry with storage. -/
theorem wit_EntryAccessUsesBitsSevenToZero :
    (writing (withRaw 3) (0x400 + 4 * 63) 0x123).Inv ∧ 63 < (withRaw 3).params.bufBytes ∧
    (writing (withRaw 3) (0x400 + 4 * 63) 0x123).phase = .idle ∧ Buf.txpay.hostWritable = true ∧
    (writing (withRaw 3) (0x400 + 4 * 63) 0x123).inputs = [writeAt (withRaw 3).params (Buf.txpay.window + 4 * 63) 0x123] :=
  ⟨inv_schedule _ (inv_withRaw 3), by decide, rfl, rfl, rfl⟩

/-- The first and last reserved offset, the first and last entry with no storage, RXPAY[0], and two read-only
registers. -/
theorem wit_WritesWithoutStorageAreIgnored :
    (∀ off ∈ [0x044, 0x3FC], off % 4 = 0 ∧ off < 0x1400 ∧ 0x44 ≤ off ∧ off < 0x400) ∧
    (entryOffset .txpay 64 % 4 = 0 ∧ entryOffset .txpay 64 < 0x1400 ∧ State.reset.params.bufBytes ≤ 64) ∧
    (entryOffset .rxpay 255 % 4 = 0 ∧ entryOffset .rxpay 255 < 0x1400 ∧ State.reset.params.bufBytes ≤ 255) ∧
    (entryOffset .rxpay 0 % 4 = 0 ∧ entryOffset .rxpay 0 < 0x1400) ∧
    (∀ off ∈ [0x004, 0x040], off % 4 = 0 ∧ off < 0x1400 ∧
      off ∈ [0x004, 0x028, 0x02C, 0x030, 0x034, 0x038, 0x03C, 0x040]) ∧
    (writing State.reset 0x044 1).inputs = [writeAt State.reset.params 0x044 1] := by decide

/-- A load of two bytes; and the load of nothing. -/
theorem wit_LoadFillsTransmitPayload :
    (schedule (HostLine.expand Params.standard (.load [0xDE, 0xAD])) (withRaw 3)).Inv ∧
    (withRaw 3).phase = .idle ∧ [0xDE, 0xAD].length ≤ (withRaw 3).params.bufBytes ∧
    (schedule (HostLine.expand Params.standard (.load [])) (withRaw 3)).inputs = [] :=
  ⟨inv_schedule _ (inv_withRaw 3), rfl, by decide, rfl⟩

/-- TX_PLEN at BUF_BYTES − 2, and above it. -/
theorem wit_EncodeWritesTheFrame :
    ((withTx 0x1F 0 0 0 62).Inv ∧ (withTx 0x1F 0 0 0 62).phase = .idle ∧
      (withTx 0x1F 0 0 0 62).tx.plen.toNat ≤ (withTx 0x1F 0 0 0 62).params.bufBytes - 2) ∧
    ((withTx 0x1F 0 0 0 63).Inv ∧ (withTx 0x1F 0 0 0 63).phase = .idle ∧
      (withTx 0x1F 0 0 0 63).params.bufBytes - 2 < (withTx 0x1F 0 0 0 63).tx.plen.toNat) :=
  ⟨⟨inv_withTx .., rfl, by decide⟩, ⟨inv_withTx .., rfl, by decide⟩⟩

theorem wit_PackLayoutAndInjectivity : pack ⟨15, 3, 7, 31⟩ = pack (unpack 0xFF 0xFF) := by decide

/-- A field out of range, TX_PLEN at BUF_BYTES − 2. -/
theorem wit_LenientEncodeMasksEachField :
    (withTx 0x1F 5 8 33 62).Inv ∧ (withTx 0x1F 5 8 33 62).phase = .idle ∧
    (withTx 0x1F 5 8 33 62).tx.plen.toNat ≤ (withTx 0x1F 5 8 33 62).params.bufBytes - 2 :=
  ⟨inv_withTx .., rfl, by decide⟩

/-- Every field at its bound, one field above its bound, TX_PLEN above its bound. -/
theorem wit_StrictEncodeChecksThenWrites :
    ((withTx 15 3 7 31 62).Inv ∧ (withTx 15 3 7 31 62).phase = .idle ∧ (withTx 15 3 7 31 62).txInRange ∧
      (withTx 15 3 7 31 62).tx.plen.toNat ≤ (withTx 15 3 7 31 62).params.bufBytes - 2) ∧
    ((withTx 0 0 0 32 62).Inv ∧ (withTx 0 0 0 32 62).phase = .idle ∧ 31 < (withTx 0 0 0 32 62).tx.pid.toNat ∧
      (withTx 0 0 0 32 62).tx.plen.toNat ≤ (withTx 0 0 0 32 62).params.bufBytes - 2) ∧
    ((withTx 16 0 0 0 63).Inv ∧ (withTx 16 0 0 0 63).phase = .idle ∧
      (withTx 16 0 0 0 63).params.bufBytes - 2 < (withTx 16 0 0 0 63).tx.plen.toNat) :=
  ⟨⟨inv_withTx .., rfl, by unfold State.txInRange; decide, by decide⟩, ⟨inv_withTx .., rfl, by decide, by decide⟩,
    ⟨inv_withTx .., rfl, by decide⟩⟩

theorem wit_StrictEqualsLenientInRange : (withTx 15 3 7 31 0).txInRange := by unfold State.txInRange; decide

/-- RXRAW_LEN 2 and 64, 1, 65. -/
theorem wit_DecodeFillsTheReceiveFrame :
    (∀ l : Word, (withRaw l).Inv ∧ (withRaw l).phase = .idle) ∧
    (2 ≤ (withRaw 2).rxrawLen.toNat ∧ (withRaw 64).rxrawLen.toNat ≤ (withRaw 64).params.bufBytes) ∧
    (withRaw 1).rxrawLen.toNat < 2 ∧ (withRaw 65).params.bufBytes < (withRaw 65).rxrawLen.toNat :=
  ⟨fun l => ⟨inv_withRaw l, rfl⟩, by decide, by decide, by decide⟩

/-- The encode hypotheses, in range and out of it; and a state `u` that holds the frame FA 10 00 00 00 05 the fixture
encodes to in RXRAW. -/
theorem wit_EncodeCopyDecodeRoundTrip :
    (fixture.Inv ∧ fixture.phase = .idle ∧ fixture.tx.plen.toNat ≤ fixture.params.bufBytes - 2 ∧ fixture.txInRange) ∧
    ((withTx 0x1F 0 0 0 0).Inv ∧ ¬ (withTx 0x1F 0 0 0 0).txInRange) ∧
    ∃ t u : State, exec .encode fixture = .next t ∧ u.Inv ∧ u.phase = .idle ∧ u.params = t.params ∧
      u.rxrawLen = t.txrawLen ∧ ∀ k < t.txrawLen.toNat, u.entry .rxraw k = t.entry .txraw k :=
  ⟨⟨inv_fixture, rfl, by decide, by unfold State.txInRange; decide⟩,
    ⟨inv_withTx .., by unfold State.txInRange; decide⟩,
    ⟨_, { State.reset with rxrawLen := 6, mem := [(0xC00, 0xFA), (0xC04, 0x10), (0xC14, 0x05)] }, rfl,
      inv_idle rfl rfl ⟨by decide, by decide⟩ (Nat.zero_le _) (Nat.zero_le _) (Nat.zero_le _), rfl, rfl, by decide,
      by decide⟩⟩

/-- Two blocks that agree on TX_PLEN bytes of TXPAY and differ in RXRAW; two that agree on three bytes of RXRAW and
differ in TX_ATTN. -/
theorem wit_CodecReadsOnlyItsOperands :
    (let s' : State := { fixture with mem := [(0x40C, 0x05), (0xC00, 0x77)] }
     fixture.phase = .idle ∧ s'.phase = .idle ∧ fixture.params = s'.params ∧ fixture.tx = s'.tx ∧
       ∀ k < fixture.tx.plen.toNat, fixture.entry .txpay k = s'.entry .txpay k) ∧
    (let s' : State := { withRaw 3 with tx := ⟨9, 0, 0, 0, 0⟩ }
     (withRaw 3).rxrawLen = s'.rxrawLen ∧ ∀ k < (withRaw 3).rxrawLen.toNat, (withRaw 3).entry .rxraw k = s'.entry .rxraw k) ∧
    fixture.Inv ∧ (withRaw 3).Inv := ⟨by decide, by decide, inv_fixture, inv_withRaw 3⟩

/-- Both lengths at their bounds; each above its bound. -/
theorem wit_ExchangeEntersTransmitPhase :
    (∀ l r : Word, (exchangeStart l r).Inv ∧ (exchangeStart l r).phase = .idle) ∧
    ((exchangeStart 62 64).replySize.toNat ≤ (exchangeStart 62 64).params.bufBytes ∧
      (exchangeStart 62 64).tx.plen.toNat ≤ (exchangeStart 62 64).params.bufBytes - 2) ∧
    (exchangeStart 0 65).params.bufBytes < (exchangeStart 0 65).replySize.toNat ∧
    (exchangeStart 63 0).params.bufBytes - 2 < (exchangeStart 63 0).tx.plen.toNat :=
  ⟨fun l r => ⟨inv_exchangeStart l r, rfl⟩, by decide, by decide, by decide⟩

theorem wit_StrictExchangeChecksThenTransmits :
    (let s := withTx 15 3 7 31 62
     s.Inv ∧ s.phase = .idle ∧ s.replySize.toNat ≤ s.params.bufBytes ∧ s.tx.plen.toNat ≤ s.params.bufBytes - 2 ∧
       s.txInRange) ∧
    (let s := withTx 0 4 0 0 62
     s.Inv ∧ s.phase = .idle ∧ s.replySize.toNat ≤ s.params.bufBytes ∧ s.tx.plen.toNat ≤ s.params.bufBytes - 2 ∧
       ¬ s.txInRange) ∧
    (let s := withTx 0 4 0 0 63
     s.Inv ∧ s.phase = .idle ∧ s.params.bufBytes - 2 < s.tx.plen.toNat) :=
  ⟨⟨inv_withTx .., rfl, by decide, by decide, by unfold State.txInRange; decide⟩,
    ⟨inv_withTx .., rfl, by decide, by decide, by unfold State.txInRange; decide⟩, ⟨inv_withTx .., rfl, by decide⟩⟩

/-- TXRAW_LEN 1 and 64, 0, 65. -/
theorem wit_SendOnlyEntersTransmitPhase :
    (∀ l : Word, (sendStart l).phase = .idle) ∧ 0 < (sendStart 1).txrawLen.toNat ∧
    (sendStart 64).txrawLen.toNat ≤ (sendStart 64).params.bufBytes ∧ (sendStart 0).txrawLen = 0 ∧
    (sendStart 65).params.bufBytes < (sendStart 65).txrawLen.toNat :=
  ⟨fun _ => rfl, by decide, by decide, by decide, by decide⟩

theorem wit_ReservedCommandsReportIllegal :
    (withRaw 3).phase = .idle ∧ (Instr.illegalF, 0b111#3) ∈ [(Instr.illegal0, 0b000#3), (.illegalF, 0b111#3)] ∧
    0xFFFFFFFA#32 &&& 0xF#32 = 0xA#32 := by decide

/-- The check at its bound and past it: REPLY_SIZE, TX_PLEN, a field, TXRAW_LEN. -/
theorem wit_ImmediateCommandsCompleteInTheWrite :
    (withRaw 3).phase = .idle ∧ Instr.decode ∉ [Instr.exchange, .exchangeS, .sendOnly] ∧
    (exchangeStart 62 65).params.bufBytes < (exchangeStart 62 65).replySize.toNat ∧
    (exchangeStart 63 64).params.bufBytes - 2 < (exchangeStart 63 64).tx.plen.toNat ∧
    ¬ (withTx 0 0 8 0 62).txInRange ∧ (sendStart 64).params.bufBytes < (sendStart 65).txrawLen.toNat :=
  ⟨rfl, by decide, by decide, by decide, by unfold State.txInRange; decide, by decide⟩

/-- A byte that is not the last; the last of a SEND_ONLY; the last of an exchange with a reply and without one. -/
theorem wit_TransmitStepSendsTheOfferedByte :
    (∀ s ∈ [sending 0, sending 2, requesting 12 1, requesting 0 1], s.phase = .tx ∧ s.Inv) ∧
    (taking (sending 0) (.channel .acceptTx)).inputs = [.channel .acceptTx] ∧
    (0 + 1 : Word) ≠ (sending 0).txrawLen ∧
    ((2 + 1 : Word) = (sending 2).txrawLen ∧ (sending 2).curop = .sendOnly) ∧
    ((1 + 1 : Word) = (requesting 12 1).txrawLen ∧ (requesting 12 1).curop = .exchange ∧ (requesting 12 1).replySize ≠ 0) ∧
    ((1 + 1 : Word) = (requesting 0 1).txrawLen ∧ (requesting 0 1).curop = .exchange ∧ (requesting 0 1).replySize = 0) := by
  refine ⟨?_, by decide, by decide, by decide, by decide, by decide⟩
  simp only [List.forall_mem_cons]
  exact ⟨⟨rfl, inv_sending_0⟩, ⟨rfl, inv_sending_2⟩, ⟨rfl, inv_requesting_12_1⟩, ⟨rfl, inv_requesting_0_1⟩, by simp⟩

/-- A byte that is not the last; the last of a reply of one byte; the last of a reply of 2 and of 64 bytes. -/
theorem wit_ReceiveStepStoresTheByte :
    (∀ s ∈ [receiving 12 3, receiving 1 0, receiving 2 1, receiving 64 63], s.phase = .rx ∧ s.Inv) ∧
    (taking (receiving 2 1) (.channel (.deliver 7))).inputs = [.channel (.deliver 7)] ∧
    (3 + 1 : Word) ≠ (receiving 12 3).replySize ∧
    ((0 + 1 : Word) = (receiving 1 0).replySize ∧ (receiving 1 0).replySize.toNat < 2) ∧
    ((1 + 1 : Word) = (receiving 2 1).replySize ∧ 2 ≤ (receiving 2 1).replySize.toNat) ∧
    (63 + 1 : Word) = (receiving 64 63).replySize := by
  refine ⟨?_, by decide, by decide, by decide, by decide, by decide⟩
  simp only [List.forall_mem_cons]
  exact ⟨⟨rfl, inv_receiving_12_3⟩, ⟨rfl, inv_receiving_1_0⟩, ⟨rfl, inv_receiving_2_1⟩, ⟨rfl, inv_receiving_64_63⟩,
    by simp⟩

theorem wit_ReadFailuresInvalidateTheReply :
    (receiving 12 3).phase = .rx ∧ (taking (receiving 12 3) (.channel .readFault)).inputs = [.channel .readFault] ∧
    (taking (receiving 12 3) (.channel .timeout)).inputs = [.channel .timeout] := by decide

theorem wit_WriteFailureEndsTheTransmission :
    (taking (sending 0) (.channel .writeFault)).Inv ∧ (taking (sending 0) (.channel .writeFault)).phase = .tx ∧
    (taking (sending 0) (.channel .writeFault)).inputs = [.channel .writeFault] :=
  ⟨inv_schedule _ inv_sending_0, rfl, rfl⟩

theorem wit_EventsNotEnabledHaveNoEffect :
    (taking (receiving 12 3) (.channel .acceptTx)).phase = .rx ∧
    (taking (receiving 12 3) (.channel .acceptTx)).inputs = [.channel .acceptTx] ∧
    (taking (sending 0) (.channel (.deliver 7))).phase = .tx ∧
    (taking (sending 0) (.channel (.deliver 7))).inputs = [.channel (.deliver 7)] ∧
    (taking State.reset (.channel .timeout)).phase = .idle := by decide

theorem wit_ABusyBlockWithoutEventsStaysBusy :
    (writing (receiving 12 3) 0x008 7).phase ≠ .idle ∧ (writing (receiving 12 3) 0x008 7).safe = true ∧
    ∀ i ∈ (writing (receiving 12 3) 0x008 7).inputs, ∃ a, i = .host a :=
  ⟨by decide, by decide, fun _ hi => ⟨_, by simpa [writing, taking, writeAt] using hi⟩⟩

theorem wit_CommandInputsAreStableWhileBusy :
    (writing (requesting 12 0) 0x008 7).Inv ∧ (writing (requesting 12 0) 0x008 7).phase ≠ .idle ∧
    (∀ rest, (writing (requesting 12 0) 0x008 7).inputs ≠ .reset :: rest) ∧
    ∃ t, step (writing (requesting 12 0) 0x008 7) = .next t :=
  ⟨inv_schedule _ inv_requesting_12_0, by decide, fun _ h => by simp [writing, taking, writeAt] at h, ⟨_, rfl⟩⟩

/-- A command that clears the counters, a reset, an accept, a delivery, and a read. -/
theorem wit_TransferCountersChangeOnlyByRule :
    (let s := writing (exchangeStart 0 12) 0 3
     s.Inv ∧ s.phase = .idle ∧ s.inputs = [cmdWrite s.params 3] ∧ decodeCmd 3 = .exchange ∧ ∃ t, step s = .next t) ∧
    ((taking (receiving 12 3) .reset).Inv ∧ ∃ t, step (taking (receiving 12 3) .reset) = .next t) ∧
    ((sending 2).phase = .tx ∧ ∃ t, step (taking (sending 2) (.channel .acceptTx)) = .next t) ∧
    ((receiving 64 63).phase = .rx ∧ ∃ t, step (taking (receiving 64 63) (.channel (.deliver 7))) = .next t) ∧
    ∃ t, step (reading (sending 2) 0x03C) = .next t :=
  ⟨⟨inv_schedule _ (inv_exchangeStart 0 12), rfl, rfl, by decide, ⟨_, rfl⟩⟩,
    ⟨inv_schedule _ inv_receiving_12_3, ⟨_, rfl⟩⟩, ⟨rfl, ⟨_, rfl⟩⟩, ⟨rfl, ⟨_, rfl⟩⟩, ⟨_, rfl⟩⟩

/-- The registers change at a decode, at the last reply byte and at a reset. -/
theorem wit_ReceiveFrameChangesOnlyAtADecode :
    (∃ t, step (writing (withRaw 3) 0 2) = .next t ∧ t.rx ≠ (withRaw 3).rx) ∧
    (∃ t, step (taking (receiving 2 1) (.channel (.deliver 7))) = .next t ∧ t.rx ≠ (receiving 2 1).rx) ∧
    ∃ t, step (taking { withRaw 3 with rx := ⟨1, 0, 4, 13, 1⟩ } .reset) = .next t ∧ t.rx ≠ ⟨1, 0, 4, 13, 1⟩ :=
  ⟨⟨_, rfl, by decide⟩, ⟨_, rfl, by decide⟩, ⟨_, rfl, by decide⟩⟩

/-- ERR changes at a command and at a reset. -/
theorem wit_ErrorCodeIsKeptUntilTheNextCommand :
    (∃ t, step (writing State.reset 0 5) = .next t ∧ t.err ≠ State.reset.err) ∧
    ∃ t, step (taking { State.reset with err := .badLength } .reset) = .next t ∧ t.err ≠ .badLength :=
  ⟨⟨_, rfl, by decide⟩, ⟨_, rfl, by decide⟩⟩

theorem wit_OnlyOfferedBytesLeaveTheBlock :
    ∃ t, step (taking (sending 2) (.channel .acceptTx)) = .next t ∧ t.sent ≠ (sending 2).sent := ⟨_, rfl, by decide⟩

theorem wit_ResetSetsEveryRegister : (taking (receiving 12 3) .reset).inputs = [.reset] := rfl

/-- The least and the greatest legal BUF_BYTES, with drawn bytes at the last entry of RXPAY. -/
theorem wit_InvariantHoldsAfterPowerOn :
    Params.wellFormed ⟨12, 0x2000⟩ = true ∧ Memory.legal ⟨12, 0x2000⟩ [(0x102C, 0xFF)] ∧
    Params.wellFormed ⟨256, 0⟩ = true ∧ Memory.legal ⟨256, 0⟩ [(0x13FC, 0xFF)] :=
  ⟨by decide, ⟨by decide, by decide⟩, by decide, ⟨by decide, by decide⟩⟩

theorem wit_EveryStepKeepsTheInvariant :
    (taking (receiving 2 1) (.channel (.deliver 7))).Inv ∧
    ∃ t, step (taking (receiving 2 1) (.channel (.deliver 7))) = .next t :=
  ⟨inv_schedule _ inv_receiving_2_1, ⟨_, rfl⟩⟩

/-- The last entries: phase TX, phase RX (a reply of 64 bytes), TX_PLEN 62 after both checks, a DECODE of 3 and of 64
bytes. -/
theorem wit_EngineIndicesStayInBounds :
    ((sending 2).Inv ∧ (sending 2).phase = .tx) ∧
    ((receiving 64 63).Inv ∧ (receiving 64 63).phase = .rx ∧ 2 ≤ (receiving 64 63).replySize.toNat) ∧
    ((withTx 15 3 7 31 62).Inv ∧ encodeCheck false (withTx 15 3 7 31 62) = .none ∧
      encodeCheck true (withTx 15 3 7 31 62) = .none) ∧
    ((withRaw 3).Inv ∧ (withRaw 3).phase = .idle ∧ ∃ t, exec .decode (withRaw 3) = .next t ∧ t.err = .none) ∧
    ((withRaw 64).Inv ∧ (withRaw 64).phase = .idle ∧ ∃ t, exec .decode (withRaw 64) = .next t ∧ t.err = .none) :=
  ⟨⟨inv_sending_2, rfl⟩, ⟨inv_receiving_64_63, rfl, by decide⟩, ⟨inv_withTx .., by decide, by decide⟩,
    ⟨inv_withRaw 3, rfl, ⟨_, rfl, rfl⟩⟩, ⟨inv_withRaw 64, rfl, ⟨_, rfl, rfl⟩⟩⟩

theorem wit_SendOnlySendsTheRawBytes :
    let s := schedule (cmdWrite Params.standard 4 :: List.replicate 1 (.channel .acceptTx)) { withRaw 3 with txrawLen := 1 }
    s.Inv ∧ s.phase = .idle ∧ decodeCmd 4 = .sendOnly ∧ s.txrawLen.toNat = 1 ∧ 1 ≤ s.params.bufBytes ∧
      s.inputs = cmdWrite s.params 4 :: List.replicate 1 (.channel .acceptTx) :=
  ⟨inv_idle rfl rfl ⟨by decide, by decide⟩ (Nat.zero_le _) (Nat.zero_le _) (Nat.zero_le _), rfl, by decide, by decide,
    by decide, rfl⟩

/-- The exchange 10 08 with the reply 03 80 (vector X9), lenient and strict. -/
theorem wit_ExchangeCompletesWithTheReply :
    let s := fun w => schedule (cmdWrite Params.standard w :: (List.replicate 2 (.channel .acceptTx) ++
      [.channel (.deliver 0x03), .channel (.deliver 0x80)])) (exchangeStart 0 2)
    (s 3).Inv ∧ (s 3).phase = .idle ∧ decodeCmd 3 = .exchange ∧ decodeCmd 0xB = .exchangeS ∧ (s 0xB).txInRange ∧
      (s 3).tx.plen.toNat = 0 ∧ (s 3).replySize.toNat = 2 ∧ (s 3).replySize.toNat ≤ (s 3).params.bufBytes ∧
      [0x03, 0x80].length = (s 3).replySize.toNat ∧
      (s 3).inputs = cmdWrite (s 3).params 3 :: (List.replicate (2 + (s 3).tx.plen.toNat) (.channel .acceptTx) ++
        [0x03, 0x80].map (fun b => .channel (.deliver b))) :=
  ⟨inv_schedule _ (inv_exchangeStart 0 2), rfl, by decide, by decide, by unfold State.txInRange; decide, by decide,
    by decide, by decide, by decide, by decide⟩

end Sys2Proof.Tests
end

section
/-! SUPPORT. What one input can do to the block, as one inductive with a constructor per kind of step, and what each
kind leaves in the transfer counters, the receive frame and ERR (20 R48; 10 R15, R26 to R30). -/

namespace Sys2Proof.Machine

/-! ### The effect of one input -/

/-- `StepEffect s rest i t`: the input `i`, with `rest` still to come, takes the block from `s` to `t` (20 R48). -/
inductive StepEffect (s : State) (rest : List Input) : Input → State → Prop where
  /-- A read is answered (20 R43). -/
  | read (addr : Nat) (d : Word) :
      StepEffect s rest (.host (.read 4 addr)) (respond (.readData d) (schedule rest s))
  /-- A write while busy is dropped (40 R69). -/
  | dropped (addr : Nat) (v : Word) (hp : s.phase ≠ .idle) :
      StepEffect s rest (.host (.write 4 addr v)) (dropWrite (respond .writeOk (schedule rest s)))
  /-- A write to anything but CMD when idle is stored (20 R40, R42). -/
  | stored (addr : Nat) (v : Word) (hp : s.phase = .idle) (ha : addr ≠ s.params.base) :
      StepEffect s rest (.host (.write 4 addr v))
        (writeTarget (targetOf (addr - s.params.base)) v (respond .writeOk (schedule rest s)))
  /-- A command is accepted and its body runs (40 R67, R68). -/
  | accepted (w : Word) (hp : s.phase = .idle) :
      StepEffect s rest (cmdWrite s.params w)
        (bodyOf (decodeCmd w) (accept (opOf (decodeCmd w)) (respond .writeOk (schedule rest s))))
  /-- A channel event (42 R87). -/
  | channel (e : ChannelEvent) : StepEffect s rest (.channel e) (channelEvent e (schedule rest s))
  /-- A reset (70 R120). -/
  | reset : StepEffect s rest .reset (resetBlock (schedule rest s))

/-- A step takes the oldest input, by one of the six effects. -/
theorem stepEffect_of_step {s t : State} {i : Input} {rest : List Input} (hi : s.inputs = i :: rest)
    (h : step s = .next t) : StepEffect s rest i t := by
  rcases step_next_cases h with ⟨hnil, -⟩ | ⟨i', rest', hi', heff⟩
  · rw [hi] at hnil; cases hnil
  · obtain ⟨rfl, rfl⟩ : i = i' ∧ rest = rest' := List.cons.inj (hi.symm.trans hi')
    rcases heff with ⟨addr, d, rfl, rfl⟩ | ⟨addr, v, rfl, hp, rfl⟩ | ⟨addr, v, rfl, hp, ha, rfl⟩ | ⟨w, rfl, hp, rfl⟩ |
      ⟨e, rfl, rfl⟩ | ⟨rfl, rfl⟩
    · exact .read addr d
    · exact .dropped addr v hp
    · exact .stored addr v hp ha
    · exact .accepted w hp
    · exact .channel e
    · exact .reset

/-- A step that changes anything takes an input. -/
theorem stepEffect_of_ne {s t : State} (h : step s = .next t) (hne : t ≠ s) :
    ∃ i rest, s.inputs = i :: rest ∧ StepEffect s rest i t := by
  cases hi : s.inputs with
  | nil =>
    rw [step_nil hi] at h
    injection h with h
    exact absurd h.symm hne
  | cons i rest => exact ⟨i, rest, rfl, stepEffect_of_step hi h⟩

/-! ### The transfer counters -/

/-- The commands that start a transfer, and so clear its counters (42 R89 to R91). -/
def StartsTransfer (i : Instr) : Prop := i = .exchange ∨ i = .exchangeS ∨ i = .sendOnly

theorem bodyOf_counters_startsTransfer {i : Instr} (h : StartsTransfer i) (s : State) :
    (bodyOf i s).txCnt = 0 ∧ (bodyOf i s).rxCnt = 0 := by
  have exchange (strict : Bool) : (runExchange strict s).txCnt = 0 ∧ (runExchange strict s).rxCnt = 0 := by
    rcases runExchange_cases strict s with ⟨-, -, h⟩ | ⟨-, h⟩ | ⟨-, -, h⟩ <;> simp [h]
  rcases h with rfl | rfl | rfl
  · exact exchange false
  · exact exchange true
  · rcases runSendOnly_cases s with ⟨-, -, h⟩ | ⟨-, h⟩ | ⟨-, -, h⟩ <;> simp [bodyOf, h]

theorem bodyOf_counters_of_not_startsTransfer {i : Instr} (h : ¬ StartsTransfer i) (s : State) :
    (bodyOf i s).txCnt = s.txCnt ∧ (bodyOf i s).rxCnt = s.rxCnt := by
  have encode (strict : Bool) : (runEncode strict s).txCnt = s.txCnt ∧ (runEncode strict s).rxCnt = s.rxCnt := by
    rcases runEncode_cases strict s with ⟨-, h⟩ | ⟨-, h⟩ <;> simp [h]
  cases i
  case encode => exact encode false
  case encodeS => exact encode true
  case decode => rcases runDecode_cases s with ⟨-, -, h⟩ | ⟨-, h⟩ | ⟨-, -, h⟩ <;> simp [bodyOf, h]
  case exchange => exact absurd (.inl rfl) h
  case exchangeS => exact absurd (.inr (.inl rfl)) h
  case sendOnly => exact absurd (.inr (.inr rfl)) h
  all_goals exact ⟨rfl, rfl⟩

theorem txStep_counters (s : State) : (txStep s).txCnt = s.txCnt + 1 ∧ (txStep s).rxCnt = s.rxCnt := by
  rcases afterTx_cases (takeByte s) with ⟨-, h⟩ | ⟨-, -, h⟩ | ⟨-, -, -, h⟩ | ⟨-, -, -, h⟩ <;> simp [txStep, h]

theorem rxStep_counters (b : Byte) (s : State) :
    (rxStep b s).txCnt = s.txCnt ∧ (rxStep b s).rxCnt = s.rxCnt + 1 := by
  rcases afterRx_cases (putByte b s) with ⟨-, h⟩ | ⟨-, h⟩ <;> simp [rxStep, h, readDone_fields]

/-- The input is a reset or the accepted CMD write of a command that starts a transfer (10 R29, R30). -/
def ClearsCounters (s : State) (i : Input) : Prop :=
  i = .reset ∨ (s.phase = .idle ∧ ∃ w, i = cmdWrite s.params w ∧ StartsTransfer (decodeCmd w))

/-- The input is an accept in phase TX (42 R92). -/
def SendsByte (s : State) (i : Input) : Prop := s.phase = .tx ∧ i = .channel .acceptTx

/-- The input delivers a byte in phase RX (42 R93). -/
def ReceivesByte (s : State) (i : Input) : Prop := s.phase = .rx ∧ ∃ b, i = .channel (.deliver b)

theorem SendsByte.not_clearsCounters {s : State} {i : Input} (h : SendsByte s i) : ¬ ClearsCounters s i := by
  obtain ⟨hp, rfl⟩ := h
  simp [ClearsCounters, hp]

theorem ReceivesByte.not_clearsCounters {s : State} {i : Input} (h : ReceivesByte s i) : ¬ ClearsCounters s i := by
  obtain ⟨hp, b, rfl⟩ := h
  simp [ClearsCounters, hp]

theorem SendsByte.not_receivesByte {s : State} {i : Input} (h : SendsByte s i) : ¬ ReceivesByte s i := by
  obtain ⟨hp, -⟩ := h
  simp [ReceivesByte, hp]

theorem not_sendsByte_host {s : State} {a : HostAccess} : ¬ SendsByte s (.host a) := by simp [SendsByte]

theorem not_receivesByte_host {s : State} {a : HostAccess} : ¬ ReceivesByte s (.host a) := by simp [ReceivesByte]

/-- A host access clears the counters only as an accepted CMD write, which is a write at BASE when idle. -/
theorem not_clearsCounters_host {s : State} {a : HostAccess}
    (h : s.phase = .idle → ∀ w, .host a ≠ cmdWrite s.params w) : ¬ ClearsCounters s (.host a) := by
  rintro (hr | ⟨hp, w, hw, -⟩)
  · cases hr
  · exact h hp w hw

/-- What a channel event does to the counters. -/
theorem channelEvent_counters (e : ChannelEvent) (s : State) :
    (SendsByte s (.channel e) ∧
      (channelEvent e s).txCnt = s.txCnt + 1 ∧ (channelEvent e s).rxCnt = s.rxCnt) ∨
    (ReceivesByte s (.channel e) ∧
      (channelEvent e s).txCnt = s.txCnt ∧ (channelEvent e s).rxCnt = s.rxCnt + 1) ∨
    (¬ SendsByte s (.channel e) ∧ ¬ ReceivesByte s (.channel e) ∧
      (channelEvent e s).txCnt = s.txCnt ∧ (channelEvent e s).rxCnt = s.rxCnt) := by
  rcases channelEvent_cases e s with ⟨hp, he⟩ | ⟨hp, rfl, he⟩ | ⟨hp, rfl, he⟩ | ⟨b, hp, rfl, he⟩ | ⟨hp, rfl, he⟩ |
    ⟨hp, rfl, he⟩
  · refine .inr (.inr ⟨?_, ?_, by rw [he], by rw [he]⟩)
    · rintro ⟨htx, ⟨⟩⟩; exact hp htx
    · rintro ⟨hrx, b, ⟨⟩⟩; exact hp hrx
  · exact .inl ⟨⟨hp, rfl⟩, he ▸ txStep_counters s⟩
  · exact .inr (.inr (by simp [SendsByte, ReceivesByte, he, writeFailure]))
  · exact .inr (.inl ⟨⟨hp, b, rfl⟩, he ▸ rxStep_counters b s⟩)
  · exact .inr (.inr (by simp [SendsByte, ReceivesByte, he, readFailure]))
  · exact .inr (.inr (by simp [SendsByte, ReceivesByte, he, readFailure]))

/-- All a step can do to the counters (10 R29, R30). -/
theorem StepEffect.counters {s t : State} {rest : List Input} {i : Input} (h : StepEffect s rest i t) :
    (ClearsCounters s i ∧ t.txCnt = 0 ∧ t.rxCnt = 0) ∨
    (SendsByte s i ∧ t.txCnt = s.txCnt + 1 ∧ t.rxCnt = s.rxCnt) ∨
    (ReceivesByte s i ∧ t.txCnt = s.txCnt ∧ t.rxCnt = s.rxCnt + 1) ∨
    (¬ ClearsCounters s i ∧ ¬ SendsByte s i ∧ ¬ ReceivesByte s i ∧ t.txCnt = s.txCnt ∧ t.rxCnt = s.rxCnt) := by
  cases h with
  | read addr d =>
    have hc := not_clearsCounters_host (s := s) (a := .read 4 addr) fun _ w => by simp [cmdWrite]
    exact .inr (.inr (.inr ⟨hc, not_sendsByte_host, not_receivesByte_host, rfl, rfl⟩))
  | dropped addr v hp =>
    have hc := not_clearsCounters_host (a := .write 4 addr v) fun hidle => absurd hidle hp
    exact .inr (.inr (.inr ⟨hc, not_sendsByte_host, not_receivesByte_host, rfl, rfl⟩))
  | stored addr v hp ha =>
    have hc := not_clearsCounters_host (s := s) (a := .write 4 addr v) fun _ w => by simp [cmdWrite, Reg.offset, ha]
    exact .inr (.inr (.inr ⟨hc, not_sendsByte_host, not_receivesByte_host, by simp [writeTarget_fields]⟩))
  | accepted w hp =>
    by_cases hw : StartsTransfer (decodeCmd w)
    · exact .inl ⟨.inr ⟨hp, w, rfl, hw⟩, bodyOf_counters_startsTransfer hw _⟩
    · refine .inr (.inr (.inr ⟨?_, not_sendsByte_host, not_receivesByte_host,
        bodyOf_counters_of_not_startsTransfer hw _⟩))
      rintro (hr | ⟨-, w', ⟨⟩, hw'⟩)
      · cases hr
      · exact hw hw'
  | channel e =>
    rcases channelEvent_counters e (schedule rest s) with h | h | ⟨hs, hr, h⟩
    · exact .inr (.inl h)
    · exact .inr (.inr (.inl h))
    · exact .inr (.inr (.inr ⟨by simp [ClearsCounters, cmdWrite], hs, hr, h⟩))
  | reset => exact .inl ⟨.inl rfl, rfl, rfl⟩

/-- A counter below some length does not wrap when it counts (41 R75). -/
theorem toNat_add_one_of_lt {x y : Word} (h : x.toNat < y.toNat) : (x + 1).toNat = x.toNat + 1 := by bv_omega

theorem State.Inv.txCnt_lt {s : State} (h : s.Inv) (hp : s.phase = .tx) :
    s.txCnt.toNat < s.txrawLen.toNat ∧ s.txrawLen.toNat ≤ s.params.bufBytes :=
  ⟨(h.txLeft hp).1, h.busyLen (by simp [hp])⟩

theorem State.Inv.rxCnt_lt {s : State} (h : s.Inv) (hp : s.phase = .rx) :
    s.rxCnt.toNat < s.replySize.toNat ∧ s.replySize.toNat ≤ s.params.bufBytes := by
  obtain ⟨hop, -, hlt⟩ := h.rxLeft hp
  exact ⟨hlt, h.busyReply (by simp [hp]) hop⟩

/-! ### The receive frame -/

/-- A command changes the receive frame only as a DECODE that ends with no error (10 R26, R28). -/
theorem bodyOf_rx (i : Instr) (s : State) :
    (bodyOf i s).rx = s.rx ∨ (i = .decode ∧ (bodyOf i s).err = .none ∧ (bodyOf i s).phase = .idle) := by
  have encode (strict : Bool) : (runEncode strict s).rx = s.rx := by
    rcases runEncode_cases strict s with ⟨-, h⟩ | ⟨-, h⟩ <;> simp [h]
  have exchange (strict : Bool) : (runExchange strict s).rx = s.rx := by
    rcases runExchange_cases strict s with ⟨-, -, h⟩ | ⟨-, h⟩ | ⟨-, -, h⟩ <;> simp [h]
  cases i
  case encode => exact .inl (encode false)
  case encodeS => exact .inl (encode true)
  case decode => rcases runDecode_cases s with ⟨-, -, h⟩ | ⟨-, h⟩ | ⟨-, -, h⟩ <;> simp [bodyOf, h]
  case exchange => exact .inl (exchange false)
  case exchangeS => exact .inl (exchange true)
  case sendOnly => rcases runSendOnly_cases s with ⟨-, -, h⟩ | ⟨-, h⟩ | ⟨-, -, h⟩ <;> simp [bodyOf, h]
  all_goals exact .inl rfl

theorem txStep_rx (s : State) : (txStep s).rx = s.rx := by
  rcases afterTx_cases (takeByte s) with ⟨-, h⟩ | ⟨-, -, h⟩ | ⟨-, -, -, h⟩ | ⟨-, -, -, h⟩ <;> simp [txStep, h]

theorem rxStep_rx (b : Byte) (s : State) :
    (rxStep b s).rx = s.rx ∨ ((rxStep b s).err = .none ∧ (rxStep b s).phase = .idle) := by
  rcases afterRx_cases (putByte b s) with ⟨-, h⟩ | ⟨-, h⟩
  · simp [rxStep, h]
  · rcases readDone_cases (putByte b s) with ⟨-, hd⟩ | ⟨-, hd⟩ <;> simp [rxStep, h, hd]

/-- A channel event changes the receive frame only as the last byte of a reply that decodes (10 R26, R28). -/
theorem channelEvent_rx (e : ChannelEvent) (s : State) :
    (channelEvent e s).rx = s.rx ∨
    (ReceivesByte s (.channel e) ∧ (channelEvent e s).err = .none ∧ (channelEvent e s).phase = .idle) := by
  rcases channelEvent_cases e s with ⟨-, he⟩ | ⟨-, -, he⟩ | ⟨-, -, he⟩ | ⟨b, hp, rfl, he⟩ | ⟨-, -, he⟩ | ⟨-, -, he⟩ <;>
    rw [he]
  · exact .inl rfl
  · exact .inl (txStep_rx s)
  · exact .inl rfl
  · exact (rxStep_rx b s).imp_right fun h => ⟨⟨hp, b, rfl⟩, h⟩
  · exact .inl rfl
  · exact .inl rfl

/-! ### Channel events while idle -/

/-- No channel event is enabled while idle (42 R87). -/
theorem channelEvent_idle {e : ChannelEvent} {s : State} (h : s.phase = .idle) : channelEvent e s = s := by
  cases e <;> simp [channelEvent, h]

end Sys2Proof.Machine
end

section
/-! SUPPORT. What a register reads as: after a write to the same and to another register, after the model's own
updates, and the fields of the STATUS word (10 R11 to R18, 20 R43). -/

namespace Sys2Proof.Machine

/-! ### Register reads and writes -/

@[simp] theorem readReg_respond (r : Reg) (a : BusResponse) (s : State) : readReg r (respond a s) = readReg r s := by
  cases r <;> rfl

@[simp] theorem readReg_schedule (r : Reg) (rest : List Input) (s : State) :
    readReg r (schedule rest s) = readReg r s := by
  cases r <;> rfl

/-- The registers a host may write (10 R11). -/
def rwRegs : List Reg := [.txAttn, .txTtl, .txDlen, .txPid, .txPlen, .txrawLen, .rxrawLen, .replySize]

theorem readReg_writeReg_same {r : Reg} (h : r ∈ rwRegs) (v : Word) (s : State) : readReg r (writeReg r v s) = v := by
  simp only [rwRegs, List.mem_cons, List.not_mem_nil, or_false] at h
  rcases h with rfl | rfl | rfl | rfl | rfl | rfl | rfl | rfl <;> rfl

theorem readReg_writeReg_ne {r r' : Reg} (h : r' ≠ r) (v : Word) (s : State) :
    readReg r' (writeReg r v s) = readReg r' s := by
  cases r <;> cases r' <;> simp [readReg, writeReg, State.status, State.busy] at h ⊢

theorem writeReg_mem (r : Reg) (v : Word) (s : State) : (writeReg r v s).mem = s.mem := by cases r <;> rfl

theorem checkAccess_offset (p : Params) (r : Reg) : checkAccess p 4 (p.base + r.offset) = .ok r.offset :=
  checkAccess_word (by cases r <;> rfl) (by cases r <;> decide)

/-- A write to a register other than CMD, of an idle block. -/
theorem step_writeReg {s : State} {r : Reg} {v : Word} {rest : List Input}
    (h : s.inputs = writeAt s.params r.offset v :: rest) (hp : s.phase = .idle) (hr : r ≠ .cmd) :
    step s = .next (writeReg r v (respond .writeOk (schedule rest s))) :=
  step_write_idle h (checkAccess_offset s.params r) hp (targetOf_offset r) (by simpa using hr)

/-! ### The STATUS word -/

/-- The fields of seven bit strings laid side by side at the widths of STATUS (10, STATUS layout). -/
theorem fields_of_statusLayout (dropped busy : Bool) (lastop : BitVec 3) (err : BitVec 4) (phase : BitVec 2) :
    let w := 0#15 ++ BitVec.ofBool dropped ++ 0#1 ++ lastop ++ err ++ 0#5 ++ phase ++ BitVec.ofBool busy
    w.getLsbD 0 = busy ∧ w.extractLsb' 1 2 = phase ∧ w.extractLsb' 3 5 = 0 ∧ w.extractLsb' 8 4 = err ∧
      w.extractLsb' 12 3 = lastop ∧ w.getLsbD 15 = false ∧ w.getLsbD 16 = dropped ∧ w.extractLsb' 17 15 = 0 := by
  intro w
  refine ⟨?_, ?_, ?_, ?_, ?_, ?_, ?_, ?_⟩ <;>
    simp (disch := decide) only [w, BitVec.getLsbD_append, BitVec.extractLsb'_append_eq_of_le,
      BitVec.extractLsb'_append_eq_of_add_le] <;>
    simp

theorem status_fields (s : State) :
    s.status.getLsbD 0 = s.busy ∧ s.status.extractLsb' 1 2 = s.phase.code ∧ s.status.extractLsb' 3 5 = 0 ∧
    s.status.extractLsb' 8 4 = s.err.code ∧ s.status.extractLsb' 12 3 = s.lastop ∧ s.status.getLsbD 15 = false ∧
    s.status.getLsbD 16 = s.dropped ∧ s.status.extractLsb' 17 15 = 0 :=
  fields_of_statusLayout s.dropped s.busy s.lastop s.err.code s.phase.code

theorem busy_eq (s : State) : s.busy = decide (s.phase ≠ .idle) := by
  unfold State.busy
  cases s.phase <;> rfl

/-- No phase has the code 11 (10 R14). -/
theorem Phase.code_ne_three (p : Phase) : p.code ≠ 0b11#2 := by cases p <;> decide

/-- The codes of 60 R102 end at 8. -/
theorem ErrCode.code_le_eight (e : ErrCode) : e.code.toNat ≤ 8 := by cases e <;> decide

end Sys2Proof.Machine
end

section
/-! SUPPORT. The statements of 10_state.md settled: O7, O11, O17, O20, O43, O44, O45. -/

namespace Sys2Proof.Machine

/-- Settles O11: each of the six effects of an input on DROPPED. -/
theorem droppedFlagChangesOnlyByRule : Obligations.DroppedFlagChangesOnlyByRule := by
  intro s t i rest hi h
  cases stepEffect_of_step hi h with
  | read addr d => rfl
  | dropped addr v hp => simp [hp]
  | stored addr v hp ha => simp [hp, ha, Reg.offset, writeTarget_fields]
  | accepted w hp => simp [hp, cmdWrite, bodyOf_fields]
  | channel e => simp [channelEvent_fields]
  | reset => rfl

/-- Settles O17: the step is `writeReg`, whose read-back laws give the registers. -/
theorem readWriteRegistersStoreAllBits : Obligations.ReadWriteRegistersStoreAllBits := by
  intro s r v rest hp hr hi
  have hcmd : r ≠ .cmd := by rintro rfl; simp at hr
  have hf := writeTarget_fields (.reg r) v (respond .writeOk (schedule rest s))
  obtain ⟨hparams, hphase, hcurop, -, -, -, -, -, -, hinputs, -, hsent⟩ := hf
  refine ⟨_, step_writeReg hi hp hcmd, readReg_writeReg_same hr v _, fun r' hne => ?_, writeReg_mem r v _, hphase,
    hcurop, hparams, hinputs, hsent⟩
  rw [readReg_writeReg_ne hne, readReg_respond, readReg_schedule]

/-- Settles O43: the four ways a step treats the counters exclude each other, and the invariant bounds what is
counted. -/
theorem transferCountersChangeOnlyByRule : Obligations.TransferCountersChangeOnlyByRule := by
  intro s t i rest hinv hi h
  change (ClearsCounters s i → _) ∧ (SendsByte s i → _) ∧ (ReceivesByte s i → _) ∧
    (¬ ClearsCounters s i → (¬ SendsByte s i → _) ∧ (¬ ReceivesByte s i → _)) ∧ _
  have htx := hinv.txCnt
  have hrx := hinv.rxCnt
  rcases (stepEffect_of_step hi h).counters with ⟨hc, ht, hr⟩ | ⟨hs, ht, hr⟩ | ⟨hd, ht, hr⟩ | ⟨hc, hs, hd, ht, hr⟩
  · have hs : ¬ SendsByte s i := fun hs => hs.not_clearsCounters hc
    have hd : ¬ ReceivesByte s i := fun hd => hd.not_clearsCounters hc
    simp [hc, hs, hd, ht, hr]
  · obtain ⟨hlt, hle⟩ := hinv.txCnt_lt hs.1
    have hcount : t.txCnt.toNat = s.txCnt.toNat + 1 := by rw [ht, toNat_add_one_of_lt hlt]
    refine ⟨fun hc => absurd hc hs.not_clearsCounters, fun _ => hcount, fun hd => absurd hd hs.not_receivesByte,
      fun _ => ⟨fun hn => absurd hs hn, fun _ => hr⟩, by omega, by rwa [hr]⟩
  · obtain ⟨hlt, hle⟩ := hinv.rxCnt_lt hd.1
    have hcount : t.rxCnt.toNat = s.rxCnt.toNat + 1 := by rw [hr, toNat_add_one_of_lt hlt]
    refine ⟨fun hc => absurd hc hd.not_clearsCounters, fun hs => absurd hd hs.not_receivesByte, fun _ => hcount,
      fun _ => ⟨fun _ => ht, fun hn => absurd hd hn⟩, by rwa [ht], by omega⟩
  · simp [hc, hs, hd, ht, hr, htx, hrx]

/-- Settles O44: only a reset, a DECODE and the end of a reply touch the receive frame. -/
theorem receiveFrameChangesOnlyAtADecode : Obligations.ReceiveFrameChangesOnlyAtADecode := by
  intro s t h hne
  obtain ⟨i, rest, hi, heff⟩ := stepEffect_of_ne h fun heq => hne (by rw [heq])
  cases heff with
  | read addr d => exact absurd rfl hne
  | dropped addr v hp => exact absurd rfl hne
  | stored addr v hp ha => simp [writeTarget_fields] at hne
  | accepted w hp =>
    obtain ⟨hdec, herr, hidle⟩ := (bodyOf_rx _ _).resolve_left hne
    exact .inr ⟨herr, hidle, .inl ⟨hp, w, rest, hdec, hi⟩⟩
  | channel e =>
    obtain ⟨⟨hp, b, hb⟩, herr, hidle⟩ := (channelEvent_rx _ _).resolve_left hne
    exact .inr ⟨herr, hidle, .inr ⟨hp, b, rest, hb ▸ hi⟩⟩
  | reset => exact .inl ⟨rest, hi⟩

/-- Settles O45: an idle block ignores channel events, and no access but a CMD write touches ERR. -/
theorem errorCodeIsKeptUntilTheNextCommand : Obligations.ErrorCodeIsKeptUntilTheNextCommand := by
  intro s t hp h hne
  obtain ⟨i, rest, hi, heff⟩ := stepEffect_of_ne h fun heq => hne (by rw [heq])
  refine ⟨rest, ?_⟩
  cases heff with
  | read addr d => exact absurd rfl hne
  | dropped addr v hbusy => exact absurd hp hbusy
  | stored addr v _ ha => simp [writeTarget_fields] at hne
  | accepted w _ => exact .inr ⟨w, hi⟩
  | channel e =>
    rw [channelEvent_idle (s := schedule rest s) hp] at hne
    exact absurd rfl hne
  | reset => exact .inl hi

/-- Settles O7, by the law of the step with an empty schedule. -/
theorem nothingScheduledChangesNothing : Obligations.NothingScheduledChangesNothing := fun _ h => step_nil h

/-- Settles O20: STATUS field by field. -/
theorem statusWordLayout : Obligations.StatusWordLayout := by
  refine ⟨fun s => ?_, by decide⟩
  obtain ⟨hbusy, hphase, hlow, herr, hlastop, h15, hdropped, hhigh⟩ := status_fields s
  refine ⟨rfl, hbusy.trans (busy_eq s), ?_, ?_, hlow, ?_, ?_, hlastop, h15, hdropped, hhigh⟩
  · exact hphase.trans (by cases s.phase <;> rfl)
  · exact hphase.trans_ne s.phase.code_ne_three
  · exact herr.trans (by cases s.err <;> rfl)
  · exact (congrArg BitVec.toNat herr).trans_le s.err.code_le_eight

end Sys2Proof.Machine
end

section
/-! SUPPORT. The laws of one host access: when it faults and with which fault, what a valid one records, and that a
read sees the block alone (20 R36 to R39, R43). -/

namespace Sys2Proof.Machine

/-! ### The two faults -/

theorem checkAccess_outsideWindow {p : Params} {size : AccessSize} {addr : Nat}
    (h : addr < p.base ∨ p.base + windowBytes ≤ addr) : checkAccess p size addr = .error .outsideWindow := if_pos h

/-- Inside the window the access check fails on the size or the alignment only, with the bus error (20 R37 to R39). -/
theorem checkAccess_busError_iff {p : Params} {size : AccessSize} {addr : Nat} (hlo : p.base ≤ addr)
    (hhi : addr < p.base + windowBytes) :
    checkAccess p size addr = .error .busError ↔ size ≠ 4 ∨ (addr - p.base) % 4 ≠ 0 := by
  have hin : ¬ (addr < p.base ∨ p.base + windowBytes ≤ addr) := by omega
  rw [checkAccess, if_neg hin]
  split
  · exact iff_of_true rfl ‹_›
  · exact iff_of_false (by simp) ‹_›

/-- The host access is a read or a write of the size at the address. -/
def HostAccess.IsAt (size : AccessSize) (addr : Nat) (a : HostAccess) : Prop :=
  a = .read size addr ∨ ∃ v, a = .write size addr v

theorem hostAccess_error {s : State} {a : HostAccess} {size : AccessSize} {addr : Nat} {f : Fault}
    (ha : a.IsAt size addr) (hc : checkAccess s.params size addr = .error f) : hostAccess a s = .fault f := by
  rcases ha with rfl | ⟨v, rfl⟩ <;> simp [hostAccess, hc]

/-! ### What an access records -/

/-- A write of any target by any block, a command among them, leaves the schedule and the response as they are. -/
theorem hostWrite_next (t : Target) (v : Word) (s : State) :
    ∃ u, hostWrite t v s = .next u ∧ u.response = s.response ∧ u.inputs = s.inputs := by
  by_cases hp : s.phase = .idle
  · by_cases ht : t = .reg .cmd
    · rw [ht, hostWrite_cmd, exec_idle hp]
      exact ⟨_, rfl, by simp [bodyOf_fields]⟩
    · rw [hostWrite_idle ht hp]
      exact ⟨_, rfl, by simp [writeTarget_fields]⟩
  · rw [hostWrite_busy hp]
    exact ⟨_, rfl, rfl, rfl⟩

/-- A valid write takes one step and is acknowledged (20 R37). -/
theorem step_write {s : State} {addr off : Nat} {size : AccessSize} {v : Word} {rest : List Input}
    (h : s.inputs = .host (.write size addr v) :: rest) (hc : checkAccess s.params size addr = .ok off) :
    ∃ t, step s = .next t ∧ t.response = some .writeOk ∧ t.inputs = rest := by
  rw [step_cons h, applyInput, hostAccess_write (s := schedule rest s) hc]
  exact hostWrite_next _ _ _

/-- A step faults on a host access exactly as the access check does. -/
theorem step_fault_iff {s : State} {a : HostAccess} {size : AccessSize} {addr : Nat} {rest : List Input} {f : Fault}
    (ha : a.IsAt size addr) (hi : s.inputs = .host a :: rest) :
    step s = .fault f ↔ checkAccess s.params size addr = .error f := by
  cases hc : checkAccess s.params size addr with
  | error g =>
    rw [step_cons hi, applyInput, hostAccess_error (s := schedule rest s) ha hc]
    simp
  | ok off =>
    obtain ⟨t, ht⟩ : ∃ t, step s = .next t := by
      rcases ha with rfl | ⟨v, rfl⟩
      · exact ⟨_, step_read hi hc⟩
      · exact (step_write hi hc).imp fun _ h => h.1
    simp [ht]

/-! ### Safe schedules -/

theorem State.valid_of_safe {s : State} {a : HostAccess} {rest : List Input} (h : s.safe = true)
    (hi : s.inputs = .host a :: rest) : a.valid s.params = true := by
  rw [State.safe, hi, List.all_cons, Bool.and_eq_true] at h
  exact h.1

theorem State.safe_of_tail {s t : State} (h : s.safe = true) (hi : t.inputs = s.inputs.tail)
    (hp : t.params = s.params) : t.safe = true := by
  rw [State.safe, List.all_eq_true] at h ⊢
  rw [hi, hp]
  exact fun i hmem => h i (List.mem_of_mem_tail hmem)

/-- A step of a safe schedule answers a next state, whose schedule is safe. -/
theorem step_safe {s : State} (h : s.safe = true) : ∃ t, step s = .next t ∧ t.safe = true := by
  rcases step_outcome s with ⟨t, ht⟩ | ⟨f, a, rest, hi, hinvalid, -⟩
  · obtain ⟨hinputs, hparams⟩ := step_inputs ht
    exact ⟨t, ht, State.safe_of_tail h hinputs hparams⟩
  · rw [State.valid_of_safe h hi] at hinvalid
    cases hinvalid

/-- A safe schedule runs for any number of steps and stays safe. -/
theorem run_safe (n : Nat) {s : State} (h : s.safe = true) :
    ∃ t : State, Sys2Proof.core.run n s = .next t ∧ t.safe = true := by
  induction n generalizing s with
  | zero => exact ⟨s, run_zero s, h⟩
  | succ n ih =>
    obtain ⟨u, hu, hsafe⟩ := step_safe h
    rw [run_succ hu]
    exact ih hsafe

/-! ### What a read sees -/

@[simp] theorem readTarget_respond (t : Target) (a : BusResponse) (s : State) :
    readTarget t (respond a s) = readTarget t s := by
  cases t with
  | reg r => exact readReg_respond r a s
  | reserved => rfl
  | entry b i => rfl

@[simp] theorem readTarget_schedule (t : Target) (rest : List Input) (s : State) :
    readTarget t (schedule rest s) = readTarget t s := by
  cases t with
  | reg r => exact readReg_schedule r rest s
  | reserved => rfl
  | entry b i => rfl

/-- Zero extension keeps the number (00 R7). -/
theorem toNat_zext32 {n : Nat} (h : n ≤ 32) (v : BitVec n) : (zext32 v).toNat = v.toNat :=
  BitVec.toNat_setWidth_of_le h

end Sys2Proof.Machine
end

section
/-! SUPPORT. The targets of the window: where the reserved offsets and the entries lie, the targets that keep nothing
of a host write, and the buffers the engine leaves alone (20 R40 to R42, 42 R93). -/

namespace Sys2Proof.Machine

/-! ### The reserved offsets -/

theorem offset_of_regAt {off : Nat} {r : Reg} (h : regAt off = some r) : off = r.offset := by
  unfold regAt at h
  split at h <;> cases h <;> rfl

theorem Reg.offset_le (r : Reg) : r.offset ≤ 0x40 := by cases r <;> decide

/-- No register stands above 0x040, so the offsets up to 0x3FC are reserved (20 R41). -/
theorem targetOf_reserved {off : Nat} (hlo : 0x44 ≤ off) (hhi : off < 0x400) : targetOf off = .reserved := by
  have hnone : regAt off = none := by
    cases hr : regAt off with
    | none => rfl
    | some r =>
      have hle := r.offset_le
      rw [← offset_of_regAt hr] at hle
      omega
  simp [targetOf, hhi, hnone]

/-! ### The entries -/

theorem checkAccess_entryOffset (p : Params) (b : Buf) {i : Nat} (hi : i < 256) :
    checkAccess p 4 (p.base + entryOffset b i) = .ok (entryOffset b i) := by
  apply checkAccess_word <;> cases b <;> simp only [entryOffset, Buf.window, windowBytes] <;> omega

theorem readTarget_entry {s : State} {i : Nat} (b : Buf) (hi : i < s.params.bufBytes) :
    readTarget (.entry b i) s = zext32 (s.mem.load (entryOffset b i)) :=
  congrArg zext32 (if_pos hi)

theorem readTarget_entry_noStorage {s : State} {i : Nat} (b : Buf) (hi : s.params.bufBytes ≤ i) :
    readTarget (.entry b i) s = 0 :=
  congrArg zext32 (if_neg (Nat.not_lt.mpr hi))

theorem writeTarget_entry {b : Buf} (hb : b.hostWritable = true) (i : Nat) (v : Word) (s : State) :
    writeTarget (.entry b i) v s = { s with mem := storeEntry s.params b i (v.extractLsb' 0 8) s.mem } := if_pos hb

theorem storeEntry_byteStored {p : Params} {b : Buf} {i : Nat} {v : Byte} {m : Memory} (hm : m.wf)
    (hi : i < p.bufBytes) : byteStored b i v m (storeEntry p b i v m) :=
  ⟨storeEntry_load_same hm hi, fun _ ha => storeEntry_load_ne ha⟩

theorem storeEntry_noStorage {p : Params} {i : Nat} (b : Buf) (v : Byte) (m : Memory) (hi : p.bufBytes ≤ i) :
    storeEntry p b i v m = m := if_neg (Nat.not_lt.mpr hi)

/-! ### Targets that keep nothing of a host write -/

/-- The read-only registers (10 section 2). -/
def roRegs : List Reg := [.status, .rxAttn, .rxTtl, .rxDlen, .rxPid, .rxPlen, .txCnt, .rxCnt]

/-- A target that keeps nothing of a host write (20 R42). -/
inductive Target.KeepsNothing (p : Params) : Target → Prop where
  /-- A reserved offset. -/
  | reserved : KeepsNothing p .reserved
  /-- A read-only register. -/
  | readOnly (r : Reg) (h : r ∈ roRegs) : KeepsNothing p (.reg r)
  /-- An entry of index at least BUF_BYTES. -/
  | noStorage (b : Buf) (i : Nat) (h : p.bufBytes ≤ i) : KeepsNothing p (.entry b i)
  /-- An entry of RXPAY. -/
  | rxpay (i : Nat) : KeepsNothing p (.entry .rxpay i)

theorem writeReg_readOnly {r : Reg} (h : r ∈ roRegs) (v : Word) (s : State) : writeReg r v s = s := by
  simp only [roRegs, List.mem_cons, List.not_mem_nil, or_false] at h
  rcases h with rfl | rfl | rfl | rfl | rfl | rfl | rfl | rfl <;> rfl

theorem Target.KeepsNothing.writeTarget_eq {s : State} {t : Target} (h : t.KeepsNothing s.params) (v : Word) :
    writeTarget t v s = s := by
  cases h with
  | reserved => rfl
  | readOnly r hr => exact writeReg_readOnly hr v s
  | noStorage b i hi => simp [writeTarget, storeEntry_noStorage b _ s.mem hi]
  | rxpay i => rfl

theorem Target.KeepsNothing.ne_cmd {p : Params} {t : Target} (h : t.KeepsNothing p) : t ≠ .reg .cmd := by
  rintro rfl
  cases h with
  | readOnly _ hr => exact absurd hr (by decide)

/-- A write to such a target is acknowledged and ignored when idle, and sets DROPPED alone while busy (20 R42,
40 R69). -/
theorem step_write_keepsNothing {s : State} {addr off : Nat} {size : AccessSize} {v : Word} {rest : List Input}
    (h : s.inputs = .host (.write size addr v) :: rest) (hc : checkAccess s.params size addr = .ok off)
    (hk : (targetOf off).KeepsNothing s.params) :
    step s = .next { s with
      inputs := rest, response := some .writeOk, dropped := if s.phase = .idle then s.dropped else true } := by
  by_cases hp : s.phase = .idle
  · have hw := hk.writeTarget_eq (s := respond .writeOk (schedule rest s)) v
    rw [step_write_idle h hc hp rfl hk.ne_cmd, hw, if_pos hp]
    rfl
  · rw [step_write_busy h hc hp, if_neg hp]
    rfl

/-- The offsets of the read-only registers name them (20 R41). -/
theorem keepsNothing_of_readOnly_offset {off : Nat} (p : Params)
    (h : off ∈ [0x004, 0x028, 0x02C, 0x030, 0x034, 0x038, 0x03C, 0x040]) : (targetOf off).KeepsNothing p := by
  have hmap : off ∈ roRegs.map Reg.offset := h
  obtain ⟨r, hr, rfl⟩ := List.mem_map.mp hmap
  rw [targetOf_offset]
  exact .readOnly r hr

/-! ### The buffers a channel event leaves alone -/

theorem txStep_mem (s : State) : (txStep s).mem = s.mem := by
  rcases afterTx_cases (takeByte s) with ⟨-, h⟩ | ⟨-, -, h⟩ | ⟨-, -, -, h⟩ | ⟨-, -, -, h⟩ <;> simp [txStep, h]

theorem readDone_other {s : State} {b : Buf} (hp : s.params.wellFormed = true) (hb : b ≠ .rxpay) (i : Nat) :
    (readDone s).entry b i = s.entry b i := by
  rcases readDone_cases s with ⟨-, h⟩ | ⟨-, h⟩
  · rw [h]; exact decodeMem_other hp hb
  · rw [h]; rfl

theorem putByte_other {s : State} {b : Buf} (hp : s.params.wellFormed = true) (hb : b ≠ .rxraw) (v : Byte) (i : Nat) :
    (putByte v s).entry b i = s.entry b i :=
  loadEntry_storeEntry_ne (Params.bounds hp).2.1 (.inl hb)

/-- A channel event stores in the receive buffers only (42 R93, R94). -/
theorem channelEvent_other {s : State} {b : Buf} (hp : s.params.wellFormed = true) (hraw : b ≠ .rxraw)
    (hpay : b ≠ .rxpay) (e : ChannelEvent) (i : Nat) : (channelEvent e s).entry b i = s.entry b i := by
  rcases channelEvent_cases e s with ⟨-, he⟩ | ⟨-, -, he⟩ | ⟨-, -, he⟩ | ⟨v, -, -, he⟩ | ⟨-, -, he⟩ | ⟨-, -, he⟩
  · rw [he]
  · have hparams : (txStep s).params = s.params := by rw [← he, (channelEvent_fields e s).1]
    rw [he, State.entry, hparams, txStep_mem, State.entry]
  · rw [he]; rfl
  · rw [he, rxStep, ← putByte_other hp hraw v]
    rcases afterRx_cases (putByte v s) with ⟨-, h⟩ | ⟨-, h⟩
    · rw [h]
    · rw [h, readDone_other (s := putByte v s) hp hpay]
  · rw [he]; rfl
  · rw [he]; rfl

end Sys2Proof.Machine
end

section
/-! SUPPORT. The statements of 20_memory.md settled: O12, O13, O14, O15, O16, O18, O19, O42. -/

namespace Sys2Proof.Machine

/-- Settles O12: a step faults as the access check does, and a valid access is answered. -/
theorem accessOtherThanAnAlignedWordIsABusError : Obligations.AccessOtherThanAnAlignedWordIsABusError := by
  intro s size addr rest hlo hhi
  refine ⟨fun a ha hi => (step_fault_iff ha hi).trans (checkAccess_busError_iff hlo hhi), fun hsize hal => ?_⟩
  have hc : checkAccess s.params size addr = .ok (addr - s.params.base) :=
    checkAccess_ok.mpr ⟨hsize, hlo, hhi, hal, rfl⟩
  exact ⟨fun hi => ⟨_, _, step_read hi hc, rfl, rfl⟩, fun v hi => step_write hi hc⟩

/-- Settles O14: a safe step goes on and stays safe, so a run does; every outcome of a step is a next state or the
fault of an access that is not valid. -/
theorem safeSchedulesNeverStop : Obligations.SafeSchedulesNeverStop := by
  refine ⟨fun n s h => run_safe n h, fun s f hf => ?_, fun s r hr => ?_⟩
  · rcases step_outcome s with ⟨t, ht⟩ | ⟨_, a, rest, hi, hinvalid, -⟩
    · rw [ht] at hf
      cases hf
    · exact ⟨a, rest, hi, hinvalid⟩
  · rcases step_outcome s with ⟨t, ht⟩ | ⟨f, -, -, -, -, hf⟩
    · rw [ht] at hr
      cases hr
    · rw [hf] at hr
      cases hr

/-- Settles O16: a read records its answer and nothing else, and no read sees the schedule or the response. -/
theorem hostReadsHaveNoSideEffect : Obligations.HostReadsHaveNoSideEffect := by
  constructor
  · intro s addr rest hv hi d
    have hc := read_valid.mp hv
    refine ⟨step_read hi hc, fun rest' hrest => ?_⟩
    have hsame : readTarget (targetOf (addr - s.params.base)) (respond (.readData d) (schedule rest s)) = d := by
      rw [readTarget_respond, readTarget_schedule]
    refine (step_read (s := respond (.readData d) (schedule rest s)) hrest hc).trans ?_
    rw [hsame]
    rfl
  · intro s
    exact ⟨rfl, rfl, rfl, rfl, rfl, rfl, rfl, rfl, rfl, toNat_zext32 (by decide) _, toNat_zext32 (by decide) _,
      toNat_zext32 (by decide) _, toNat_zext32 (by decide) _, rfl, rfl, rfl⟩

/-- Settles O18: the offset decodes to the entry, whose store changes one byte. -/
theorem entryAccessUsesBitsSevenToZero : Obligations.EntryAccessUsesBitsSevenToZero := by
  intro s b i hinv hi
  have hbuf : s.params.bufBytes ≤ 256 := (Params.bounds hinv.params).2.1
  have htarget : targetOf (b.window + 4 * i) = .entry b i := targetOf_entryOffset b i (by omega)
  refine ⟨by rw [htarget]; exact readTarget_entry b hi, fun v rest hp hb hin => ?_⟩
  have hc := checkAccess_entryOffset s.params b (show i < 256 by omega)
  refine ⟨_, ?_, storeEntry_byteStored hinv.mem.1 hi⟩
  rw [step_write_idle hin hc hp htarget (by simp), writeTarget_entry hb]
  rfl

/-- Settles O19: each of the three kinds of offset decodes to a target that keeps nothing. -/
theorem writesWithoutStorageAreIgnored : Obligations.WritesWithoutStorageAreIgnored := by
  intro s off hal hoff hkind
  have hkeeps : (targetOf off).KeepsNothing s.params := by
    rcases hkind with ⟨hlo, hhi⟩ | ⟨b, i, rfl, hi, hno | rfl⟩ | hro
    · rw [targetOf_reserved hlo hhi]
      exact .reserved
    · rw [targetOf_entryOffset b i hi]
      exact .noStorage b i hno
    · rw [targetOf_entryOffset .rxpay i hi]
      exact .rxpay i
    · exact keepsNothing_of_readOnly_offset s.params hro
  refine ⟨fun v rest hin => step_write_keepsNothing hin (checkAccess_word hal hoff) hkeeps, ?_⟩
  rintro (⟨hlo, hhi⟩ | ⟨b, i, rfl, hi, hno⟩)
  · rw [targetOf_reserved hlo hhi]
    rfl
  · rw [targetOf_entryOffset b i hi, readTarget_entry_noStorage b hno]

/-- Settles O42: while busy a host access stores nothing, and a channel event stores in the receive buffers only. -/
theorem commandInputsAreStableWhileBusy : Obligations.CommandInputsAreStableWhileBusy := by
  intro s t hinv hbusy hreset h
  by_cases hts : t = s
  · simp [hts]
  obtain ⟨i, rest, hi, heff⟩ := stepEffect_of_ne h hts
  cases heff with
  | read addr d => exact ⟨rfl, rfl, rfl, fun _ => ⟨rfl, rfl⟩⟩
  | dropped addr v _ => exact ⟨rfl, rfl, rfl, fun _ => ⟨rfl, rfl⟩⟩
  | stored addr v hp _ => exact absurd hp hbusy
  | accepted w hp => exact absurd hp hbusy
  | channel e =>
    obtain ⟨-, -, -, -, htx, hlen, hreply, -, -⟩ := channelEvent_fields e (schedule rest s)
    have hother {b : Buf} := channelEvent_other (s := schedule rest s) (b := b) hinv.params
    exact ⟨htx, hlen, hreply, fun k => ⟨hother (by decide) (by decide) e k, hother (by decide) (by decide) e k⟩⟩
  | reset => exact absurd hi (hreset rest)

/-- Settles O13: a step faults as the access check does. -/
theorem accessOutsideTheWindowIsNotDecoded : Obligations.AccessOutsideTheWindowIsNotDecoded :=
  fun _ _ _ _ _ ha hi hout => (step_fault_iff ha hi).mpr (checkAccess_outsideWindow hout)

/-- Settles O15, by the decode of register offsets, reserved offsets and entries. -/
theorem offsetDecodeFollowsTheMap : Obligations.OffsetDecodeFollowsTheMap := by
  refine ⟨⟨rfl, rfl, rfl, rfl, rfl, rfl, rfl, rfl, rfl, rfl, rfl, rfl, rfl, rfl, rfl, rfl, rfl⟩, targetOf_offset,
    fun off hlo hhi => targetOf_reserved hlo hhi, fun i hi => ?_⟩
  have hentry (b : Buf) : targetOf (b.window + 4 * i) = .entry b i := targetOf_entryOffset b i hi
  exact ⟨hentry .txpay, hentry .txraw, hentry .rxraw, hentry .rxpay⟩

end Sys2Proof.Machine
end

section
/-! SUPPORT. The laws of the command word: decode and encode undo each other, the mask of the command map keeps the
nibble alone, and a row is selected by the words that decode to its command (30 R61 to R64). -/

namespace Sys2Proof

/-! ### Decode and encode -/

@[simp] theorem decodeCmd_encodeWith (hi : BitVec 28) (i : Instr) : decodeCmd (encodeWith hi i) = i := by
  rw [decodeCmd, cmdNibble_encodeWith, decodeNibble_nibbleOf]

@[simp] theorem decodeCmd_encode (i : Instr) : decodeCmd (encode i) = i := decodeCmd_encodeWith 0 i

theorem encodeWith_ignoredBits (hi : BitVec 28) (i : Instr) : (encodeWith hi i).extractLsb' 4 28 = hi :=
  BitVec.extractLsb'_append_eq_left

theorem encodeWith_decodeCmd (w : Word) : encodeWith (w.extractLsb' 4 28) (decodeCmd w) = w := by
  have hsplit : w.extractLsb' 4 28 ++ w.extractLsb' 0 4 = w.extractLsb' 0 32 :=
    BitVec.extractLsb'_append_extractLsb'_eq_extractLsb' rfl
  rw [encodeWith, decodeCmd, nibbleOf_decodeNibble, cmdNibble, hsplit, BitVec.extractLsb'_eq_self]

/-- A 32-bit word read from the opcode table is a word on the bus. -/
theorem decodeTableWord_toNat (w : Word) : decodeTableWord 32 w.toNat = some (decodeCmd w) := by
  have hw : w.toNat < 2 ^ 32 := w.isLt
  rw [decodeTableWord, decodeSized, if_pos ⟨le_rfl, hw⟩, Nat.mod_eq_of_lt hw, BitVec.ofNat_toNat, BitVec.setWidth_eq]

/-! ### The rows of the command map -/

/-- The mask of the command map leaves the word of the same command with its ignored bits 0. -/
theorem and_lowNibble_eq_encode (w : Word) : w &&& 0xF#32 = encode (decodeCmd w) := by
  have hmask : ∀ j < 32, (0xF#32).getLsbD j = decide (j < 4) := by decide
  apply BitVec.eq_of_getLsbD_eq
  intro j hj
  rw [BitVec.getLsbD_and, hmask j hj, encode, encodeWith_getLsbD, decodeCmd, nibbleOf_decodeNibble,
    cmdNibble_getLsbD]
  by_cases h : j < 4 <;> simp [h]

/-- A row is made of its command alone: the value is the command's word, and the mask is the low nibble. -/
theorem eq_of_mem_cmdRows : ∀ r ∈ cmdRows, r = ⟨r.instr, encode r.instr, 0xF#32⟩ := by decide

theorem exists_cmdRow (i : Instr) : ∃ r ∈ cmdRows, r.instr = i := by cases i <;> decide

theorem selects_iff {r : CmdRow} (hr : r ∈ cmdRows) (w : Word) : r.selects w = true ↔ decodeCmd w = r.instr := by
  have hword : r.selects w = true ↔ w &&& 0xF#32 = encode r.instr := by
    rw [eq_of_mem_cmdRows r hr]
    exact beq_iff_eq
  rw [hword, and_lowNibble_eq_encode]
  exact (Function.LeftInverse.injective decodeCmd_encode).eq_iff

theorem mem_cmdRows_of_command {r : CmdRow} (h : r ∈ commandRows) : r ∈ cmdRows := List.mem_append_left _ h

/-- Two rows that one word selects are the same row. -/
theorem cmdRow_unique {r r' : CmdRow} {w : Word} (hr : r ∈ cmdRows) (hr' : r' ∈ cmdRows) (h : r.selects w = true)
    (h' : r'.selects w = true) : r' = r := by
  rw [eq_of_mem_cmdRows r hr, eq_of_mem_cmdRows r' hr', ← (selects_iff hr w).mp h, ← (selects_iff hr' w).mp h']

/-- Command decode is total: every word selects a row, that of the command it decodes to (30 R64). -/
theorem exists_selected_row (w : Word) : ∃ r ∈ cmdRows, r.selects w = true ∧ decodeCmd w = r.instr := by
  obtain ⟨r, hr, hinstr⟩ := exists_cmdRow (decodeCmd w)
  exact ⟨r, hr, (selects_iff hr w).mpr hinstr.symm, hinstr.symm⟩

/-- A word that selects a reserved row selects no row of the command map (30 R63). -/
theorem not_selects_command_of_reserved {r : CmdRow} {w : Word} (hr : r ∈ reservedRows) (h : r.selects w = true) :
    ∀ r' ∈ commandRows, r'.selects w = false := by
  have hdisjoint : ∀ r ∈ reservedRows, r ∉ commandRows := by decide
  intro r' hr'
  rw [Bool.eq_false_iff]
  intro h'
  have heq : r' = r := cmdRow_unique (List.mem_append_right _ hr) (mem_cmdRows_of_command hr') h h'
  exact hdisjoint r hr (heq ▸ hr')

/-- The low nibble of a word that selects a reserved row is one of the ten of 30 R63. -/
theorem lowNibble_of_reserved {r : CmdRow} {w : Word} (hr : r ∈ reservedRows) (h : r.selects w = true) :
    w &&& 0xF#32 ∈ [0x0#32, 0x8#32, 0x5#32, 0xD#32, 0x6#32, 0xE#32, 0x7#32, 0xF#32, 0xA#32, 0xC#32] := by
  have hwords : ∀ r ∈ reservedRows, encode r.instr ∈
      [0x0#32, 0x8#32, 0x5#32, 0xD#32, 0x6#32, 0xE#32, 0x7#32, 0xF#32, 0xA#32, 0xC#32] := by decide
  rw [and_lowNibble_eq_encode, (selects_iff (List.mem_append_right _ hr) w).mp h]
  exact hwords r hr

/-- The ignored bits do not reach the decoder (30 R64). -/
theorem decodeCmd_and_lowNibble (w : Word) : decodeCmd (w &&& 0xF#32) = decodeCmd w := by
  rw [and_lowNibble_eq_encode, decodeCmd_encode]

end Sys2Proof
end

section
/-! SUPPORT. The writes of `LOAD TXPAY` (30 R65): what a row of bytes stored in consecutive entries is, and the run
that stores one. -/

namespace Sys2Proof.Machine

/-- `m'` is `m` with the bytes `bs` in the entries of a buffer from `i` on, and every other byte as it was (20 R40). -/
def bytesStored (buf : Buf) (i : Nat) (bs : List Byte) (m m' : Memory) : Prop :=
  (∀ k (h : k < bs.length), m'.load (entryOffset buf (i + k)) = bs[k]) ∧
    ∀ a, (∀ k < bs.length, a ≠ entryOffset buf (i + k)) → m'.load a = m.load a

theorem bytesStored_nil (buf : Buf) (i : Nat) (m : Memory) : bytesStored buf i [] m m :=
  ⟨fun _ h => absurd h (Nat.not_lt_zero _), fun _ _ => rfl⟩

theorem entryOffset_ne {i j : Nat} (buf : Buf) (h : i ≠ j) : entryOffset buf i ≠ entryOffset buf j := by
  unfold entryOffset
  omega

/-- One byte stored, and then the rest behind it. -/
theorem bytesStored_cons {buf : Buf} {i : Nat} {b : Byte} {bs : List Byte} {m m' m'' : Memory}
    (hhead : byteStored buf i b m m') (htail : bytesStored buf (i + 1) bs m' m'') :
    bytesStored buf i (b :: bs) m m'' := by
  obtain ⟨hb, hframe⟩ := hhead
  obtain ⟨hbs, hframes⟩ := htail
  have hshift (k : Nat) : i + 1 + k = i + (k + 1) := by omega
  constructor
  · intro k hk
    cases k with
    | zero => exact (hframes _ fun k _ => entryOffset_ne buf (by omega)).trans hb
    | succ k =>
      rw [← hshift]
      exact hbs k (Nat.lt_of_succ_lt_succ hk)
  · intro a ha
    have htail_ne : ∀ k < bs.length, a ≠ entryOffset buf (i + 1 + k) := fun k hk => by
      rw [hshift]
      exact ha (k + 1) (Nat.succ_lt_succ hk)
    rw [hframes a htail_ne, hframe a (ha 0 (Nat.zero_lt_succ _))]

/-- Bits 7:0 of a zero-extended byte are the byte (20 R40). -/
theorem extractLsb'_zext32 (b : Byte) : (zext32 b).extractLsb' 0 8 = b := by
  rw [zext32, BitVec.extractLsb'_setWidth_of_le (by decide), BitVec.extractLsb'_eq_self]

/-- A write to an entry a host may write, of an idle block: one byte is stored. -/
theorem step_writeEntry {s : State} {buf : Buf} {i : Nat} {b : Byte} {rest : List Input}
    (hin : s.inputs = writeAt s.params (entryOffset buf i) (zext32 b) :: rest) (hp : s.phase = .idle)
    (hbuf : buf.hostWritable = true) (hi : i < 256) :
    step s = .next { s with
      inputs := rest, response := some .writeOk, mem := storeEntry s.params buf i b s.mem } := by
  rw [step_write_idle hin (checkAccess_entryOffset s.params buf hi) hp (targetOf_entryOffset buf i hi) (by simp),
    writeTarget_entry hbuf, extractLsb'_zext32]
  rfl

/-- The writes of a load, from entry `i` on, run on an idle block with storage for them. -/
theorem run_loadFrom {s : State} {i : Nat} {bs : List Byte} (hm : s.mem.wf) (hp : s.phase = .idle)
    (hcap : s.params.bufBytes ≤ 256) (hfit : i + bs.length ≤ s.params.bufBytes)
    (hin : s.inputs = loadFrom s.params i bs) :
    ∃ m r, Sys2Proof.core.run bs.length s = .next { s with inputs := [], response := r, mem := m } ∧
      bytesStored .txpay i bs s.mem m := by
  induction bs generalizing s i with
  | nil =>
    have hnil : s.inputs = [] := hin
    exact ⟨s.mem, s.response, by rw [← hnil]; rfl, bytesStored_nil ..⟩
  | cons b bs ih =>
    rw [List.length_cons] at hfit ⊢
    rw [run_succ (step_writeEntry hin hp rfl (by omega))]
    obtain ⟨m, r, hrun, hstored⟩ := ih (i := i + 1) (s := { s with
      inputs := loadFrom s.params (i + 1) bs, response := some .writeOk, mem := storeEntry s.params .txpay i b s.mem })
      (storeEntry_wf hm) hp hcap (by simp only; omega) rfl
    exact ⟨m, r, hrun, bytesStored_cons (storeEntry_byteStored hm (by omega)) hstored⟩

end Sys2Proof.Machine
end

section
/-! SUPPORT. The statements of 30_encoding.md settled: O1, O2, O3, O4, O5, O21. -/

namespace Sys2Proof.Machine

/-- Settles O1: the decoder undoes the encoder, and the ignored bits stand above the nibble. -/
theorem decodeOfEncodeIsTheCommand : Obligations.DecodeOfEncodeIsTheCommand := by
  intro i hi
  refine ⟨decodeCmd_encodeWith hi i, ?_, encodeWith_ignoredBits hi i⟩
  rw [decodeTableWord_toNat, decodeCmd_encodeWith]

/-- Settles O2: a word is its bits 31:4 above its nibble, and the nibble is that of the command. -/
theorem encodeOfDecodeIsTheWord : Obligations.EncodeOfDecodeIsTheWord := encodeWith_decodeCmd

/-- Settles O3: a word selects the row of its command and no other, and the row is one of the two kinds. -/
theorem wordSelectsOneRowOrIsReserved : Obligations.WordSelectsOneRowOrIsReserved := by
  intro w
  obtain ⟨r, hr, hsel, hdecode⟩ := exists_selected_row w
  rcases List.mem_append.mp hr with hcommand | hreserved
  · exact .inl ⟨r, hcommand, hsel, hdecode, fun r' hr' => cmdRow_unique hr (mem_cmdRows_of_command hr') hsel⟩
  · exact .inr ⟨not_selects_command_of_reserved hreserved hsel, lowNibble_of_reserved hreserved hsel, r, hreserved,
      hsel, hdecode⟩

/-- Settles O4: a CMD write sees its word through the decoder alone. -/
theorem ignoredBitsNeverChangeTheOutcome : Obligations.IgnoredBitsNeverChangeTheOutcome := by
  intro w
  refine ⟨exists_selected_row w, (decodeCmd_and_lowNibble w).symm, fun s => ?_⟩
  rw [hostWrite_cmd, hostWrite_cmd, decodeCmd_and_lowNibble]

/-- Settles O21, by the run of the load from entry 0. -/
theorem loadFillsTransmitPayload : Obligations.LoadFillsTransmitPayload := by
  intro s bs hinv hp hlen hin
  obtain ⟨-, hcap, -⟩ := Params.bounds hinv.params
  obtain ⟨m, r, hrun, hstored⟩ := run_loadFrom hinv.mem.1 hp hcap (by omega) hin
  simp only [bytesStored, Nat.zero_add] at hstored
  exact ⟨m, r, hrun, hstored⟩

/-- Settles O5: nine words run through the decoder. -/
theorem specWordsDecodeAsWritten : Obligations.SpecWordsDecodeAsWritten := by
  unfold Obligations.SpecWordsDecodeAsWritten
  decide

end Sys2Proof.Machine
end

section
/-! SUPPORT. The laws of command acceptance: where LASTOP comes from, in which phase a command leaves the block, what a
reserved command does, and the next command word placed on the schedule (40 R67 to R73). -/

namespace Sys2Proof.Machine

/-! ### Acceptance -/

/-- The OP of the command a word decodes to is bits 2:0 of the word (30 R61). -/
theorem opOf_decodeCmd (w : Word) : opOf (decodeCmd w) = w.extractLsb' 0 3 := by
  rw [opOf, decodeCmd, nibbleOf_decodeNibble, cmdNibble, BitVec.extractLsb'_extractLsb'_of_le (by decide)]

@[simp] theorem accept_txInRange (op : BitVec 3) (s : State) : (accept op s).txInRange ↔ s.txInRange := Iff.rfl

/-- An idle block on which a command completes after acceptance changes ERR, LASTOP and DROPPED alone. -/
theorem complete_accept_idle {s : State} (h : s.phase = .idle) (code : ErrCode) (op : BitVec 3) :
    complete code (accept op s) = { s with err := code, lastop := op, dropped := false } := by
  rw [complete, ← h]
  rfl

/-! ### The phase a command leaves -/

theorem encodeCheck_eq_none_iff {strict : Bool} {s : State} :
    encodeCheck strict s = .none ↔
      s.tx.plen.toNat ≤ s.params.bufBytes - 2 ∧ (strict = true → s.txInRange) := by
  refine ⟨fun h => ⟨plen_le_of_encodeCheck h, ?_⟩, fun ⟨hlen, hr⟩ => encodeCheck_none hlen hr⟩
  rintro rfl
  by_contra hr
  rw [encodeCheck_outOfRange (plen_le_of_encodeCheck h) hr] at h
  cases h

/-- A command leaves the block idle, or it starts a transfer and ERR is what acceptance left (40 R68, R70). -/
theorem bodyOf_phase (i : Instr) (s : State) :
    (bodyOf i s).phase = .idle ∨
    (StartsTransfer i ∧ (bodyOf i s).phase = .tx ∧ (bodyOf i s).err = s.err) := by
  have encode (strict : Bool) : (runEncode strict s).phase = .idle := by
    rcases runEncode_cases strict s with ⟨-, h⟩ | ⟨-, h⟩ <;> simp [h]
  have exchange (strict : Bool) : (runExchange strict s).phase = .idle ∨
      ((runExchange strict s).phase = .tx ∧ (runExchange strict s).err = s.err) := by
    rcases runExchange_cases strict s with ⟨-, -, h⟩ | ⟨-, h⟩ | ⟨-, -, h⟩ <;> simp [h]
  cases i
  case encode => exact .inl (encode false)
  case encodeS => exact .inl (encode true)
  case decode => rcases runDecode_cases s with ⟨-, -, h⟩ | ⟨-, h⟩ | ⟨-, -, h⟩ <;> simp [bodyOf, h]
  case exchange => exact (exchange false).imp_right fun h => ⟨.inl rfl, h⟩
  case exchangeS => exact (exchange true).imp_right fun h => ⟨.inr (.inl rfl), h⟩
  case sendOnly =>
    rcases runSendOnly_cases s with ⟨-, -, h⟩ | ⟨-, h⟩ | ⟨-, -, h⟩ <;> simp [bodyOf, h, StartsTransfer]
  all_goals exact .inl rfl

/-- EXCHANGE and EXCHANGE.S complete at once exactly when an acceptance check fails (42 R89, R90). -/
theorem runExchange_idle_iff (strict : Bool) (s : State) :
    (runExchange strict s).phase = .idle ↔
      s.params.bufBytes < s.replySize.toNat ∨ s.params.bufBytes - 2 < s.tx.plen.toNat ∨
        (strict = true ∧ ¬ s.txInRange) := by
  have hcheck : encodeCheck strict s ≠ .none ↔
      s.params.bufBytes - 2 < s.tx.plen.toNat ∨ (strict = true ∧ ¬ s.txInRange) := by
    rw [Ne, encodeCheck_eq_none_iff, not_and_or, not_le, Classical.not_imp]
  rw [← hcheck]
  rcases runExchange_cases strict s with ⟨hsize, hpass, h⟩ | ⟨hsize, h⟩ | ⟨-, hfail, h⟩
  · simp [h, hpass, hsize]
  · simp [h, hsize]
  · simp [h, hfail]

/-- SEND_ONLY completes at once exactly when its length check fails or there is nothing to send (42 R91). -/
theorem runSendOnly_idle_iff (s : State) :
    (runSendOnly s).phase = .idle ↔ s.params.bufBytes < s.txrawLen.toNat ∨ s.txrawLen = 0 := by
  rcases runSendOnly_cases s with ⟨hpos, hlen, h⟩ | ⟨hlen, h⟩ | ⟨-, hzero, h⟩
  · have hne : s.txrawLen ≠ 0 := by
      intro h0
      simp [h0] at hpos
    simpa [h, hlen] using hne
  · simp [h, hlen]
  · simp [h, hzero]

/-! ### Reserved commands -/

/-- The commands of the ten reserved low nibbles (30 R63). -/
def IsReserved (i : Instr) : Prop := i ∈ reservedRows.map CmdRow.instr

theorem bodyOf_reserved {i : Instr} (h : IsReserved i) : bodyOf i = runIllegal := by
  obtain ⟨r, hr, rfl⟩ := List.mem_map.mp h
  simp only [reservedRows, List.mem_cons, List.not_mem_nil, or_false] at hr
  rcases hr with rfl | rfl | rfl | rfl | rfl | rfl | rfl | rfl | rfl | rfl <;> rfl

/-- The words of the reserved low nibbles decode to the reserved commands (30 R63). -/
theorem isReserved_decodeCmd {w : Word}
    (h : w &&& 0xF#32 ∈ [0x0#32, 0x5#32, 0x6#32, 0x7#32, 0x8#32, 0xA#32, 0xC#32, 0xD#32, 0xE#32, 0xF#32]) :
    IsReserved (decodeCmd w) := by
  have hwords : reservedRows.map (fun r => encode r.instr) =
      [0x0#32, 0x5#32, 0x6#32, 0x7#32, 0x8#32, 0xA#32, 0xC#32, 0xD#32, 0xE#32, 0xF#32] := by decide
  rw [← hwords, and_lowNibble_eq_encode] at h
  obtain ⟨r, hr, hencode⟩ := List.mem_map.mp h
  exact List.mem_map.mpr ⟨r, hr, Function.LeftInverse.injective decodeCmd_encode hencode⟩

/-- A reserved command on an idle block (40 R72). -/
theorem exec_reserved {i : Instr} {s : State} (hi : IsReserved i) (h : s.phase = .idle) :
    exec i s = .next { s with err := .illegalCommand, lastop := opOf i, dropped := false } := by
  rw [exec_idle h, bodyOf_reserved hi, runIllegal, complete_accept_idle h]

/-- STATUS of an idle block that reports ILLEGAL_COMMAND for OP 000 (10, STATUS layout; 40 R72). -/
theorem status_illegal_op_zero {s : State} (hp : s.phase = .idle) (he : s.err = .illegalCommand) (hl : s.lastop = 0)
    (hd : s.dropped = false) : s.status = 0x00000800 := by
  rw [State.status, State.busy, hp, he, hl, hd]
  rfl

/-! ### The next command word -/

theorem decodeCmd_of_decodeTableWord {nbits w : Nat} {i : Instr} (h : decodeTableWord nbits w = some i) :
    decodeCmd (BitVec.ofNat 32 (w % 2 ^ nbits)) = i := by
  by_cases hfit : nbits ≤ 32 ∧ w < 2 ^ 32
  · rw [decodeTableWord, decodeSized, if_pos hfit] at h
    exact Option.some.inj h
  · rw [decodeTableWord, decodeSized, if_neg hfit] at h
    cases h

theorem step_withFetchWord (s : State) (nbits w : Nat) :
    step (s.withFetchWord nbits w) = exec (decodeCmd (BitVec.ofNat 32 (w % 2 ^ nbits))) (respond .writeOk s) :=
  step_cmdWrite (s := s.withFetchWord nbits w) rfl

end Sys2Proof.Machine
end

section
/-! SUPPORT. The statements of 40_command.md settled: O6, O8, O9, O10, O34, O35. -/

namespace Sys2Proof.Machine

/-- Settles O8: acceptance writes the three fields, no body touches LASTOP or DROPPED, and accepting twice is
accepting once. -/
theorem acceptanceEffectsOfEveryCommand : Obligations.AcceptanceEffectsOfEveryCommand := by
  intro w s hp
  rw [← opOf_decodeCmd]
  obtain ⟨-, hlastop, hdropped, -⟩ := bodyOf_fields (decodeCmd w) (accept (opOf (decodeCmd w)) s)
  refine ⟨_, exec_idle hp, hlastop, hdropped, fun hbusy => ?_, exec_idle (s := accept (opOf (decodeCmd w)) s) hp⟩
  obtain ⟨-, -, herr⟩ := (bodyOf_phase _ _).resolve_left hbusy
  exact herr

/-- Settles O10: a write while busy is dropped at every offset, and a read is served in every phase. -/
theorem busyBlockDropsEveryWrite : Obligations.BusyBlockDropsEveryWrite :=
  fun _ _ _ hp =>
    ⟨fun _ hv hi => step_write_busy hi (write_valid.mp hv) hp, fun hv hi => step_read hi (read_valid.mp hv)⟩

/-- Settles O34, by the one law of the reserved commands. -/
theorem reservedCommandsReportIllegal : Obligations.ReservedCommandsReportIllegal := by
  have hword (s : State) (w : Word) (hp : s.phase = .idle) (hw : IsReserved (decodeCmd w)) :
      exec (decodeCmd w) s = .next { s with
        err := .illegalCommand, lastop := w.extractLsb' 0 3, dropped := false } := by
    rw [exec_reserved hw hp, opOf_decodeCmd]
  refine ⟨fun s i op hp hmem => ?_, fun s w hp hw => hword s w hp (isReserved_decodeCmd hw), fun s t hp ht => ?_⟩
  · have hops : (i, op) ∈ reservedRows.map fun r => (r.instr, opOf r.instr) := hmem
    obtain ⟨r, hr, heq⟩ := List.mem_map.mp hops
    obtain ⟨rfl, rfl⟩ := Prod.mk.inj heq
    exact exec_reserved (List.mem_map_of_mem hr) hp
  · rw [hword s 0 hp (isReserved_decodeCmd (by decide))] at ht
    cases ht
    exact status_illegal_op_zero hp rfl rfl rfl

/-- Settles O35: only a command that starts a transfer leaves IDLE, and it stays exactly when a check fails or nothing
is to be sent. -/
theorem immediateCommandsCompleteInTheWrite : Obligations.ImmediateCommandsCompleteInTheWrite := by
  intro s i hp
  have hphase := bodyOf_phase i (accept (opOf i) s)
  refine ⟨_, exec_idle hp, hphase.imp_right fun h => h.2.1, fun hi => ?_, ?_, ?_, ?_⟩
  · exact hphase.resolve_right fun ⟨hstarts, _⟩ => hi (by simpa [StartsTransfer] using hstarts)
  · rintro rfl
    exact (runExchange_idle_iff false _).trans (by simp)
  · rintro rfl
    exact (runExchange_idle_iff true _).trans (by simp)
  · rintro rfl
    exact runSendOnly_idle_iff _

/-- Settles O6: the step takes the CMD write off the schedule, answers it and runs the command; a table word is placed
as such a write. -/
theorem stepRunsTheDecodedCommand : Obligations.StepRunsTheDecodedCommand := by
  refine ⟨fun s w rest hi => step_cmdWrite hi, fun s nbits w i h => ?_⟩
  rw [step_withFetchWord, decodeCmd_of_decodeTableWord h]
  rfl

/-- Settles O9, by the busy side of `exec`. -/
theorem busyBlockTurnsEveryCommandAway : Obligations.BusyBlockTurnsEveryCommandAway := fun _ _ hp => exec_busy hp

end Sys2Proof.Machine
end

section
/-! SUPPORT. The packer and the unpacker as numbers, and that each undoes the other up to the reserved bits (41 R76,
R77). -/

namespace Sys2Proof.Machine

/-- Two bit strings side by side are a sum. -/
theorem toNat_append_eq_add {m n : Nat} (x : BitVec m) (y : BitVec n) :
    (x ++ y).toNat = x.toNat * 2 ^ n + y.toNat := by
  rw [BitVec.toNat_append, ← Nat.shiftLeft_add_eq_or_of_lt y.isLt, Nat.shiftLeft_eq]

theorem pack_toNat (h : Header) :
    (pack h).toNat = h.attn.toNat * 2 ^ 12 + h.ttl.toNat * 2 ^ 10 + h.dlen.toNat * 2 ^ 7 + h.pid.toNat * 2 ^ 2 := by
  simp only [pack, toNat_append_eq_add, BitVec.toNat_ofNat]
  omega

theorem pack_reservedBits (h : Header) : (pack h).extractLsb' 0 2 = 0#2 := by
  apply BitVec.eq_of_toNat_eq
  simp only [BitVec.extractLsb'_toNat, pack_toNat, Nat.shiftRight_zero, BitVec.toNat_ofNat]
  omega

theorem headerByte0_toNat (w : BitVec 16) : (headerByte0 w).toNat = w.toNat / 2 ^ 8 := by
  have := w.isLt
  simp only [headerByte0, BitVec.extractLsb'_toNat, Nat.shiftRight_eq_div_pow]
  omega

theorem headerByte1_toNat (w : BitVec 16) : (headerByte1 w).toNat = w.toNat % 2 ^ 8 := by
  simp [headerByte1, BitVec.extractLsb'_toNat]

theorem unpack_toNat (b0 b1 : Byte) :
    (unpack b0 b1).attn.toNat = b0.toNat / 16 ∧ (unpack b0 b1).ttl.toNat = b0.toNat / 4 % 4 ∧
    (unpack b0 b1).dlen.toNat = b0.toNat % 4 * 2 + b1.toNat / 128 ∧ (unpack b0 b1).pid.toNat = b1.toNat / 4 % 32 := by
  have h0 := b0.isLt
  have h1 := b1.isLt
  simp only [unpack, toNat_append_eq_add, BitVec.extractLsb'_toNat, Nat.shiftRight_eq_div_pow, and_true, true_and]
  omega

theorem Header.eq_of_toNat_eq {h h' : Header} (hattn : h.attn.toNat = h'.attn.toNat) (httl : h.ttl.toNat = h'.ttl.toNat)
    (hdlen : h.dlen.toNat = h'.dlen.toNat) (hpid : h.pid.toNat = h'.pid.toNat) : h = h' := by
  cases h
  cases h'
  rw [Header.mk.injEq]
  exact ⟨BitVec.eq_of_toNat_eq hattn, BitVec.eq_of_toNat_eq httl, BitVec.eq_of_toNat_eq hdlen,
    BitVec.eq_of_toNat_eq hpid⟩

/-- `Unpack` of the two bytes of `Pack` is the header (41 R77). -/
theorem unpack_pack (h : Header) : unpack (headerByte0 (pack h)) (headerByte1 (pack h)) = h := by
  have hattn := h.attn.isLt
  have httl := h.ttl.isLt
  have hdlen := h.dlen.isLt
  have hpid := h.pid.isLt
  obtain ⟨uattn, uttl, udlen, upid⟩ := unpack_toNat (headerByte0 (pack h)) (headerByte1 (pack h))
  rw [headerByte0_toNat, pack_toNat] at uattn uttl udlen
  rw [headerByte1_toNat, pack_toNat] at udlen upid
  apply Header.eq_of_toNat_eq <;> omega

/-- `Pack` of `Unpack` is the pair with the reserved bits cleared (41 R77). -/
theorem pack_unpack (b0 b1 : Byte) : pack (unpack b0 b1) = b0 ++ b1.extractLsb' 2 6 ++ 0b00#2 := by
  have h1 := b1.isLt
  obtain ⟨uattn, uttl, udlen, upid⟩ := unpack_toNat b0 b1
  apply BitVec.eq_of_toNat_eq
  simp only [pack_toNat, toNat_append_eq_add, BitVec.extractLsb'_toNat, Nat.shiftRight_eq_div_pow, BitVec.toNat_ofNat]
  omega

theorem pack_injective : Function.Injective pack :=
  Function.LeftInverse.injective (g := fun w => unpack (headerByte0 w) (headerByte1 w)) unpack_pack

/-- The fields a lenient encode takes are the registers modulo 2 to the width of the field (41 R78). -/
theorem maskedHeader_toNat (f : TxFrame) :
    (maskedHeader f).attn.toNat = f.attn.toNat % 2 ^ 4 ∧ (maskedHeader f).ttl.toNat = f.ttl.toNat % 2 ^ 2 ∧
    (maskedHeader f).dlen.toNat = f.dlen.toNat % 2 ^ 3 ∧ (maskedHeader f).pid.toNat = f.pid.toNat % 2 ^ 5 := by
  simp [maskedHeader]

/-- In range the masking keeps the registers, zero-extended again (41 R85). -/
theorem zext32_maskedHeader {s : State} (h : s.txInRange) :
    zext32 (maskedHeader s.tx).attn = s.tx.attn ∧ zext32 (maskedHeader s.tx).ttl = s.tx.ttl ∧
    zext32 (maskedHeader s.tx).dlen = s.tx.dlen ∧ zext32 (maskedHeader s.tx).pid = s.tx.pid := by
  obtain ⟨hattn, httl, hdlen, hpid⟩ := h
  obtain ⟨mattn, mttl, mdlen, mpid⟩ := maskedHeader_toNat s.tx
  refine ⟨?_, ?_, ?_, ?_⟩ <;> apply BitVec.eq_of_toNat_eq <;> rw [toNat_zext32 (by decide)] <;> omega

end Sys2Proof.Machine
end

section
/-! SUPPORT. The codec commands on an idle block: the next state of ENCODE, ENCODE.S and DECODE with a passed and with a
failed check, the entries that hold the frame and the payload afterwards, and strict against lenient (41 R79 to
R84). -/

namespace Sys2Proof.Machine

/-! ### Encode -/

/-- ENCODE or, when strict, ENCODE.S (41 R82, R83). -/
def encodeInstr (strict : Bool) : Instr :=
  match strict with
  | false => .encode
  | true => .encodeS

theorem exec_encodeInstr {strict : Bool} {s : State} (hp : s.phase = .idle) :
    exec (encodeInstr strict) s = .next (runEncode strict (accept 0b001 s)) := by
  cases strict
  · exact exec_idle hp
  · exact exec_idle hp

theorem exec_encodeInstr_pass {strict : Bool} {s : State} (hp : s.phase = .idle) (h : encodeCheck strict s = .none) :
    exec (encodeInstr strict) s = .next { s with
      err := .none, lastop := 0b001, dropped := false, txrawLen := 2 + s.tx.plen, mem := encodeMem s } := by
  have hrun : runEncode strict (accept 0b001 s) = complete .none (encodeBody (accept 0b001 s)) := if_pos h
  rw [exec_encodeInstr hp, hrun, complete, ← hp]
  rfl

theorem exec_encodeInstr_fail {strict : Bool} {s : State} {code : ErrCode} (hp : s.phase = .idle)
    (h : encodeCheck strict s = code) (hcode : code ≠ .none) :
    exec (encodeInstr strict) s = .next { s with err := code, lastop := 0b001, dropped := false } := by
  subst h
  have hrun : runEncode strict (accept 0b001 s) = complete (encodeCheck strict s) (accept 0b001 s) := if_neg hcode
  rw [exec_encodeInstr hp, hrun, complete_accept_idle hp]

/-- An encode whose check passes leaves the frame in TXRAW and its length in TXRAW_LEN (41 R80). -/
theorem exec_encodeInstr_frameStored {strict : Bool} {s : State} (hinv : s.Inv) (hp : s.phase = .idle)
    (h : encodeCheck strict s = .none) :
    ∃ (m : Memory) (len : Word),
      exec (encodeInstr strict) s = .next { s with
        err := .none, lastop := 0b001, dropped := false, txrawLen := len, mem := m } ∧
      len.toNat = 2 + s.tx.plen.toNat ∧ s.frameStored m :=
  have hlen := plen_le_of_encodeCheck h
  ⟨_, _, exec_encodeInstr_pass hp h, toNat_two_add_plen hinv.params hlen,
    encodeMem_frameStored hinv.params hinv.mem.1 hlen⟩

/-- TXRAW holds the frame, entry by entry (41 R80). -/
theorem State.frameStored.loadEntry_txraw {s : State} {m : Memory} {k : Nat} (h : s.frameStored m) (hinv : s.Inv)
    (hlen : s.tx.plen.toNat ≤ s.params.bufBytes - 2) (hk : k < 2 + s.tx.plen.toNat) :
    loadEntry s.params .txraw k m = s.frameByte k := by
  have hb := Params.bounds hinv.params
  rw [loadEntry, if_pos (by omega), h.1 k hk]

theorem frameByte_payload (s : State) (k : Nat) : s.frameByte (2 + k) = s.entry .txpay k := by
  rw [State.frameByte, if_neg (by omega), if_neg (by omega), Nat.add_sub_cancel_left]

theorem unpack_frameBytes (s : State) : unpack (s.frameByte 0) (s.frameByte 1) = maskedHeader s.tx :=
  unpack_pack (maskedHeader s.tx)

/-- The frame is a function of the TX registers and the payload in TXPAY (41 R86). -/
theorem frameByte_congr {s s' : State} (htx : s.tx = s'.tx)
    (hpay : ∀ k < s.tx.plen.toNat, s.entry .txpay k = s'.entry .txpay k) {k : Nat} (hk : k < 2 + s.tx.plen.toNat) :
    s.frameByte k = s'.frameByte k := by
  unfold State.frameByte
  rw [htx]
  split
  · rfl
  · split
    · rfl
    · exact hpay (k - 2) (by omega)

/-! ### Strict and lenient -/

theorem encodeCheck_strict_of_inRange {s : State} (h : s.txInRange) : encodeCheck true s = encodeCheck false s := by
  simp [encodeCheck, fieldOutOfRange_eq_false.mpr h]

theorem runEncode_strict_of_inRange {s : State} (h : s.txInRange) : runEncode true s = runEncode false s := by
  simp only [runEncode, encodeCheck_strict_of_inRange h]

theorem runExchange_strict_of_inRange {s : State} (h : s.txInRange) : runExchange true s = runExchange false s := by
  have hclear : (clearCounts s).txInRange := h
  simp only [runExchange, beginExchange, encodeCheck_strict_of_inRange hclear]

/-! ### Decode -/

theorem exec_decode_pass {s : State} (hp : s.phase = .idle) (hlo : 2 ≤ s.rxrawLen.toNat)
    (hhi : s.rxrawLen.toNat ≤ s.params.bufBytes) :
    exec .decode s = .next { s with
      err := .none, lastop := 0b010, dropped := false, mem := decodeMem s.rxrawLen s,
      rx := rxFrameOf (s.entry .rxraw 0) (s.entry .rxraw 1) s.rxrawLen } := by
  have hrun : runDecode (accept 0b010 s) = complete .none (decodeBody s.rxrawLen (accept 0b010 s)) :=
    (if_neg (Nat.not_lt.mpr hhi)).trans (if_neg (Nat.not_lt.mpr hlo))
  rw [exec_idle hp]
  change Host.Outcome.next (runDecode (accept 0b010 s)) = _
  rw [hrun, complete, ← hp]
  rfl

theorem exec_decode_badLength {s : State} (hp : s.phase = .idle) (h : s.params.bufBytes < s.rxrawLen.toNat) :
    exec .decode s = .next { s with err := .badLength, lastop := 0b010, dropped := false } := by
  have hrun : runDecode (accept 0b010 s) = complete .badLength (accept 0b010 s) := if_pos h
  rw [exec_idle hp, ← complete_accept_idle hp, ← hrun]
  rfl

theorem exec_decode_frameTooShort {s : State} (hinv : s.Inv) (hp : s.phase = .idle) (h : s.rxrawLen.toNat < 2) :
    exec .decode s = .next { s with err := .frameTooShort, lastop := 0b010, dropped := false } := by
  have hb := Params.bounds hinv.params
  have hrun : runDecode (accept 0b010 s) = complete .frameTooShort (accept 0b010 s) :=
    (if_neg (show ¬ s.rxrawLen.toNat > s.params.bufBytes by omega)).trans (if_pos h)
  rw [exec_idle hp, ← complete_accept_idle hp, ← hrun]
  rfl

/-- A DECODE that ends with no error had a legal length (41 R84). -/
theorem rxrawLen_of_exec_decode {s t : State} (hp : s.phase = .idle) (h : exec .decode s = .next t)
    (herr : t.err = .none) : 2 ≤ s.rxrawLen.toNat ∧ s.rxrawLen.toNat ≤ s.params.bufBytes := by
  rw [exec_idle hp] at h
  injection h with h
  subst h
  rcases runDecode_cases (accept 0b010 s) with ⟨hlo, hhi, -⟩ | ⟨-, hrun⟩ | ⟨-, -, hrun⟩
  · exact ⟨hlo, hhi⟩
  · exact absurd ((congrArg State.err hrun).symm.trans herr) (by simp)
  · exact absurd ((congrArg State.err hrun).symm.trans herr) (by simp)

/-- RXPAY holds the bytes after the header, entry by entry (41 R81). -/
theorem decodeMem_rxpay {s : State} {n : Word} {k : Nat} (hinv : s.Inv) (hn : n.toNat ≤ s.params.bufBytes)
    (hk : k < n.toNat - 2) : loadEntry s.params .rxpay k (decodeMem n s) = s.entry .rxraw (2 + k) := by
  rw [loadEntry, if_pos (by omega)]
  exact (decodeMem_payloadStored hinv.params hinv.mem.1 hn).1 k hk

/-- DECODE of a frame that stands in RXRAW with its length leaves the masked header and the payload of the frame
(41 R85). -/
theorem exec_decode_of_frame {s u : State} (hinv : u.Inv) (hp : u.phase = .idle) (hlen : u.rxrawLen = 2 + s.tx.plen)
    (hn : u.rxrawLen.toNat = 2 + s.tx.plen.toNat) (hcap : u.rxrawLen.toNat ≤ u.params.bufBytes)
    (hframe : ∀ k < 2 + s.tx.plen.toNat, u.entry .rxraw k = s.frameByte k) :
    ∃ v, exec .decode u = .next v ∧ v.err = .none ∧
      v.rx = ⟨(maskedHeader s.tx).attn, (maskedHeader s.tx).ttl, (maskedHeader s.tx).dlen, (maskedHeader s.tx).pid,
        s.tx.plen⟩ ∧
      ∀ k < s.tx.plen.toNat, v.entry .rxpay k = s.entry .txpay k := by
  have hplen : u.rxrawLen - 2 = s.tx.plen := by rw [hlen, BitVec.add_comm, BitVec.add_sub_cancel]
  refine ⟨_, exec_decode_pass hp (by omega) hcap, rfl, ?_, fun k hk => ?_⟩
  · rw [hframe 0 (by omega), hframe 1 (by omega), rxFrameOf, unpack_frameBytes, hplen]
  · calc loadEntry u.params .rxpay k (decodeMem u.rxrawLen u)
      _ = u.entry .rxraw (2 + k) := decodeMem_rxpay hinv hcap (by omega)
      _ = s.frameByte (2 + k) := hframe (2 + k) (by omega)
      _ = s.entry .txpay k := frameByte_payload s k

/-- `n − 2` does not wrap (41 R75). -/
theorem rxFrameOf_plen_toNat {b0 b1 : Byte} {n : Word} (h : 2 ≤ n.toNat) :
    (rxFrameOf b0 b1 n).plen.toNat = n.toNat - 2 := by
  change (n - 2).toNat = n.toNat - 2
  bv_omega

/-! ### What the codec commands read -/

section
variable {s s' : State} (hinv : s.Inv) (hinv' : s'.Inv) (hp : s.phase = .idle) (hp' : s'.phase = .idle)
  (hparams : s.params = s'.params)
include hinv hinv' hp hp' hparams

/-- ENCODE and ENCODE.S see the TX registers and the payload alone (41 R86). -/
theorem exec_encodeInstr_congr {strict : Bool} (htx : s.tx = s'.tx)
    (hpay : ∀ k < s.tx.plen.toNat, s.entry .txpay k = s'.entry .txpay k) :
    ∃ t t', exec (encodeInstr strict) s = .next t ∧ exec (encodeInstr strict) s' = .next t' ∧ t.err = t'.err ∧
      (t.err = .none → t.txrawLen = t'.txrawLen ∧
        ∀ k < t.txrawLen.toNat, t.entry .txraw k = t'.entry .txraw k) := by
  have hcheck : encodeCheck strict s' = encodeCheck strict s := by rw [encodeCheck, encodeCheck, htx, hparams]
  by_cases hpass : encodeCheck strict s = .none
  · have hpass' := hcheck.trans hpass
    have hlen := plen_le_of_encodeCheck hpass
    have hlen' := plen_le_of_encodeCheck hpass'
    have hstored := encodeMem_frameStored hinv.params hinv.mem.1 hlen
    have hstored' := encodeMem_frameStored hinv'.params hinv'.mem.1 hlen'
    refine ⟨_, _, exec_encodeInstr_pass hp hpass, exec_encodeInstr_pass hp' hpass', rfl, fun _ => ⟨by rw [htx], ?_⟩⟩
    intro k hk
    have hk : k < 2 + s.tx.plen.toNat := toNat_two_add_plen hinv.params hlen ▸ hk
    calc loadEntry s.params .txraw k (encodeMem s)
      _ = s.frameByte k := hstored.loadEntry_txraw hinv hlen hk
      _ = s'.frameByte k := frameByte_congr htx hpay hk
      _ = loadEntry s'.params .txraw k (encodeMem s') := (hstored'.loadEntry_txraw hinv' hlen' (htx ▸ hk)).symm
  · exact ⟨_, _, exec_encodeInstr_fail hp rfl hpass, exec_encodeInstr_fail hp' hcheck hpass, rfl,
      fun herr => absurd herr hpass⟩

/-- DECODE sees RXRAW_LEN and the bytes it covers alone (41 R86). -/
theorem exec_decode_congr (hlen : s.rxrawLen = s'.rxrawLen)
    (hraw : ∀ k < s.rxrawLen.toNat, s.entry .rxraw k = s'.entry .rxraw k) :
    ∃ t t', exec .decode s = .next t ∧ exec .decode s' = .next t' ∧ t.err = t'.err ∧
      (t.err = .none → t.rx = t'.rx ∧ ∀ k < t.rx.plen.toNat, t.entry .rxpay k = t'.entry .rxpay k) := by
  by_cases hlo : s.rxrawLen.toNat < 2
  · exact ⟨_, _, exec_decode_frameTooShort hinv hp hlo, exec_decode_frameTooShort hinv' hp' (hlen ▸ hlo), rfl, by simp⟩
  · by_cases hhi : s.params.bufBytes < s.rxrawLen.toNat
    · exact ⟨_, _, exec_decode_badLength hp hhi, exec_decode_badLength hp' (hlen ▸ hparams ▸ hhi), rfl, by simp⟩
    · have hlo : 2 ≤ s.rxrawLen.toNat := Nat.not_lt.mp hlo
      have hhi : s.rxrawLen.toNat ≤ s.params.bufBytes := Nat.not_lt.mp hhi
      have hhi' : s'.rxrawLen.toNat ≤ s'.params.bufBytes := hlen ▸ hparams ▸ hhi
      refine ⟨_, _, exec_decode_pass hp hlo hhi, exec_decode_pass hp' (hlen ▸ hlo) hhi', rfl, fun _ => ⟨?_, ?_⟩⟩
      · rw [hraw 0 (by omega), hraw 1 (by omega), hlen]
      · intro k hk
        have hk : k < s.rxrawLen.toNat - 2 := rxFrameOf_plen_toNat hlo ▸ hk
        calc loadEntry s.params .rxpay k (decodeMem s.rxrawLen s)
          _ = s.entry .rxraw (2 + k) := decodeMem_rxpay hinv hhi hk
          _ = s'.entry .rxraw (2 + k) := hraw (2 + k) (by omega)
          _ = loadEntry s'.params .rxpay k (decodeMem s'.rxrawLen s') :=
            (decodeMem_rxpay hinv' hhi' (hlen ▸ hk)).symm

end

end Sys2Proof.Machine
end

section
/-! SUPPORT. The invariant of the block (41 R75): the clauses that hold in every phase, kept by every update on its own;
the whole invariant from them where the phase is known; and that each kind of step keeps it. -/

namespace Sys2Proof.Machine

/-! ### The clauses of every phase -/

/-- The clauses of the invariant that do not speak of a command in flight. -/
structure State.Bounded (s : State) : Prop where
  /-- The parameters are legal (00 R2, R3). -/
  params : s.params.wellFormed = true
  /-- The buffers are in canonical form and lie where there is storage (20 R42). -/
  mem : s.mem.legal s.params
  /-- RX_PLEN is in range (10 R28). -/
  rxPlen : s.rx.plen.toNat ≤ s.params.bufBytes - 2
  /-- TX_CNT is in range (10 R29). -/
  txCnt : s.txCnt.toNat ≤ s.params.bufBytes
  /-- RX_CNT is in range (10 R30). -/
  rxCnt : s.rxCnt.toNat ≤ s.params.bufBytes

theorem State.Inv.bounded {s : State} (h : s.Inv) : s.Bounded := ⟨h.params, h.mem, h.rxPlen, h.txCnt, h.rxCnt⟩

/-- In an idle block the clauses of every phase are the whole invariant. -/
theorem State.Bounded.inv_of_idle {s : State} (h : s.Bounded) (hp : s.phase = .idle) : s.Inv where
  params := h.params
  mem := h.mem
  rxPlen := h.rxPlen
  txCnt := h.txCnt
  rxCnt := h.rxCnt
  busyErr := by simp [hp]
  busyOp := by simp [hp]
  busyLen := by simp [hp]
  busyReply := by simp [hp]
  txLeft := by simp [hp]
  rxLeft := by simp [hp]

namespace State.Bounded

variable {s : State} (h : s.Bounded)
include h

theorem accept (op : BitVec 3) : (accept op s).Bounded := { h with }

theorem complete (code : ErrCode) : (complete code s).Bounded := { h with }

theorem respond (r : BusResponse) : (respond r s).Bounded := { h with }

theorem schedule (rest : List Input) : (schedule rest s).Bounded := { h with }

theorem setRxrawLen (n : Word) : State.Bounded { s with rxrawLen := n } := { h with }

theorem clearCounts : (clearCounts s).Bounded := { h with txCnt := Nat.zero_le _, rxCnt := Nat.zero_le _ }

theorem encodeBody : (encodeBody s).Bounded := { h with mem := encodeMem_legal h.params h.mem }

theorem decodeBody {n : Word} (hlo : 2 ≤ n.toNat) (hhi : n.toNat ≤ s.params.bufBytes) :
    (decodeBody n s).Bounded :=
  { h with
    mem := decodeMem_legal h.params h.mem
    rxPlen := by
      have hplen := rxFrameOf_plen_toNat (b0 := s.entry .rxraw 0) (b1 := s.entry .rxraw 1) hlo
      rw [decodeBody_rx, decodedFrame_eq, hplen]
      exact Nat.sub_le_sub_right hhi 2 }

theorem takeByte (hlt : s.txCnt.toNat < s.txrawLen.toNat) (hlen : s.txrawLen.toNat ≤ s.params.bufBytes) :
    (takeByte s).Bounded :=
  { h with
    txCnt := by
      rw [takeByte_txCnt, toNat_add_one_of_lt hlt]
      exact Nat.le_trans hlt hlen }

theorem putByte (b : Byte) (hlt : s.rxCnt.toNat < s.replySize.toNat) (hlen : s.replySize.toNat ≤ s.params.bufBytes) :
    (putByte b s).Bounded :=
  { h with
    mem := storeEntry_legal (Params.bounds h.params).2.1 h.mem
    rxCnt := by
      rw [putByte_rxCnt, toNat_add_one_of_lt hlt]
      exact Nat.le_trans hlt hlen }

theorem readDone (hlen : s.replySize.toNat ≤ s.params.bufBytes) : (readDone s).Bounded := by
  rcases readDone_cases s with ⟨hlo, hrun⟩ | ⟨-, hrun⟩ <;> rw [hrun]
  · exact ((h.setRxrawLen s.replySize).decodeBody hlo hlen).complete _
  · exact (h.setRxrawLen _).complete _

theorem writeTarget (t : Target) (v : Word) : (writeTarget t v s).Bounded := by
  obtain ⟨hparams, -, -, -, -, -, hrx, htx, hcnt, -⟩ := writeTarget_fields t v s
  have hmem : (Machine.writeTarget t v s).mem.legal s.params := by
    rcases writeTarget_mem t v s with hw | ⟨b, i, -, -, hw⟩ <;> rw [hw]
    · exact h.mem
    · exact storeEntry_legal (Params.bounds h.params).2.1 h.mem
  exact ⟨hparams ▸ h.params, hparams ▸ hmem, hrx ▸ hparams ▸ h.rxPlen, htx ▸ hparams ▸ h.txCnt,
    hcnt ▸ hparams ▸ h.rxCnt⟩

theorem resetBlock : (resetBlock s).Bounded :=
  { h with rxPlen := Nat.zero_le _, txCnt := Nat.zero_le _, rxCnt := Nat.zero_le _ }

end State.Bounded

/-! ### Entering the transmit phase -/

/-- What holds of a block about to send: nothing sent or taken yet, something to send, and room for it and the
reply (42 R89, R91). -/
structure State.ReadyToSend (op : CurOp) (s : State) : Prop where
  bounded : s.Bounded
  err : s.err = .none
  lastop : s.lastop = op.op
  txCnt : s.txCnt = 0
  rxCnt : s.rxCnt = 0
  lenPos : 0 < s.txrawLen.toNat
  len : s.txrawLen.toNat ≤ s.params.bufBytes
  reply : op = .exchange → s.replySize.toNat ≤ s.params.bufBytes

theorem State.ReadyToSend.startTx_inv {op : CurOp} {s : State} (h : s.ReadyToSend op) : (startTx op s).Inv :=
  { h.bounded with
    busyErr := fun _ => h.err
    busyOp := fun _ => h.lastop
    busyLen := fun _ => h.len
    busyReply := fun _ => h.reply
    txLeft := fun _ => ⟨by simpa [h.txCnt] using h.lenPos, h.rxCnt⟩
    rxLeft := by simp }

/-! ### Commands -/

theorem runEncode_inv {strict : Bool} {s : State} (h : s.Bounded) : (runEncode strict s).Inv := by
  rcases runEncode_cases strict s with ⟨-, hrun⟩ | ⟨-, hrun⟩ <;> rw [hrun]
  · exact (h.encodeBody.complete _).inv_of_idle rfl
  · exact (h.complete _).inv_of_idle rfl

theorem runDecode_inv {s : State} (h : s.Bounded) : (runDecode s).Inv := by
  rcases runDecode_cases s with ⟨hlo, hhi, hrun⟩ | ⟨-, hrun⟩ | ⟨-, -, hrun⟩ <;> rw [hrun]
  · exact ((h.decodeBody hlo hhi).complete _).inv_of_idle rfl
  · exact (h.complete _).inv_of_idle rfl
  · exact (h.complete _).inv_of_idle rfl

theorem runExchange_inv {strict : Bool} {s : State} (h : s.Bounded) (herr : s.err = .none)
    (hop : s.lastop = CurOp.exchange.op) : (runExchange strict s).Inv := by
  rcases runExchange_cases strict s with ⟨hreply, hcheck, hrun⟩ | ⟨-, hrun⟩ | ⟨-, -, hrun⟩ <;> rw [hrun]
  · have hplen := plen_le_of_encodeCheck hcheck
    have hlen : (encodeBody (clearCounts s)).txrawLen.toNat = 2 + s.tx.plen.toNat := toNat_two_add_plen h.params hplen
    have hb := Params.bounds h.params
    have hready : (encodeBody (clearCounts s)).ReadyToSend .exchange :=
      { bounded := h.clearCounts.encodeBody
        err := herr
        lastop := hop
        txCnt := rfl
        rxCnt := rfl
        lenPos := by omega
        len := by rw [hlen, encodeBody_params, clearCounts_params]; omega
        reply := fun _ => hreply }
    exact hready.startTx_inv
  · exact (h.clearCounts.complete _).inv_of_idle rfl
  · exact (h.clearCounts.complete _).inv_of_idle rfl

theorem runSendOnly_inv {s : State} (h : s.Bounded) (herr : s.err = .none) (hop : s.lastop = CurOp.sendOnly.op) :
    (runSendOnly s).Inv := by
  rcases runSendOnly_cases s with ⟨hpos, hlen, hrun⟩ | ⟨-, hrun⟩ | ⟨-, -, hrun⟩ <;> rw [hrun]
  · have hready : (clearCounts s).ReadyToSend .sendOnly :=
      { bounded := h.clearCounts
        err := herr
        lastop := hop
        txCnt := rfl
        rxCnt := rfl
        lenPos := hpos
        len := hlen
        reply := by simp }
    exact hready.startTx_inv
  · exact (h.clearCounts.complete _).inv_of_idle rfl
  · exact (h.clearCounts.complete _).inv_of_idle rfl

/-- Every accepted command leaves the invariant (40 R68). -/
theorem bodyOf_accept_inv (i : Instr) {s : State} (h : s.Bounded) : (bodyOf i (accept (opOf i) s)).Inv := by
  have ha := h.accept (opOf i)
  cases i
  case encode => exact runEncode_inv ha
  case encodeS => exact runEncode_inv ha
  case decode => exact runDecode_inv ha
  case exchange => exact runExchange_inv ha rfl rfl
  case exchangeS => exact runExchange_inv ha rfl rfl
  case sendOnly => exact runSendOnly_inv ha rfl rfl
  all_goals exact (ha.complete _).inv_of_idle rfl

/-! ### Channel events -/

/-- The transmit step: another byte is left, or the command goes on or ends (42 R92). -/
theorem txStep_inv {s : State} (h : s.Inv) (hp : s.phase = .tx) : (txStep s).Inv := by
  obtain ⟨hlt, hlen⟩ := h.txCnt_lt hp
  obtain ⟨-, hrx⟩ := h.txLeft hp
  have hbusy : s.phase ≠ .idle := by simp [hp]
  have hb := h.bounded.takeByte hlt hlen
  have hcnt := toNat_add_one_of_lt hlt
  rcases afterTx_cases (takeByte s) with ⟨hne, hrun⟩ | ⟨-, -, hrun⟩ | ⟨hlast, hop, hreply, hrun⟩ | ⟨-, -, -, hrun⟩ <;>
    rw [txStep, hrun]
  · exact
      { hb with
        busyErr := h.busyErr
        busyOp := h.busyOp
        busyLen := h.busyLen
        busyReply := h.busyReply
        txLeft := fun _ => ⟨by simp only [takeByte_txCnt, takeByte_txrawLen] at hne ⊢; bv_omega, hrx⟩
        rxLeft := by simp [hp] }
  · exact (hb.complete _).inv_of_idle rfl
  · exact
      { hb with
        busyErr := fun _ => h.busyErr hbusy
        busyOp := fun _ => h.busyOp hbusy
        busyLen := fun _ => hlen
        busyReply := fun _ => h.busyReply hbusy
        txLeft := by simp
        rxLeft := fun _ => ⟨hop, hlast, by simp only [takeByte_rxCnt, takeByte_replySize, hrx] at hreply ⊢; bv_omega⟩ }
  · exact ((hb.setRxrawLen 0).complete _).inv_of_idle rfl

/-- The receive step: another byte is missing, or the reply ends (42 R93). -/
theorem rxStep_inv {s : State} (h : s.Inv) (hp : s.phase = .rx) (b : Byte) : (rxStep b s).Inv := by
  obtain ⟨hlt, hlen⟩ := h.rxCnt_lt hp
  obtain ⟨hop, hsent, -⟩ := h.rxLeft hp
  have hb := h.bounded.putByte b hlt hlen
  have hcnt := toNat_add_one_of_lt hlt
  rcases afterRx_cases (putByte b s) with ⟨hne, hrun⟩ | ⟨-, hrun⟩ <;> rw [rxStep, hrun]
  · exact
      { hb with
        busyErr := h.busyErr
        busyOp := h.busyOp
        busyLen := h.busyLen
        busyReply := h.busyReply
        txLeft := by simp [hp]
        rxLeft := fun _ => ⟨hop, hsent, by simp only [putByte_rxCnt, putByte_replySize] at hne ⊢; bv_omega⟩ }
  · exact (hb.readDone hlen).inv_of_idle (readDone_fields _).2.1

theorem channelEvent_inv {s : State} (h : s.Inv) (e : ChannelEvent) : (channelEvent e s).Inv := by
  rcases channelEvent_cases e s with ⟨-, he⟩ | ⟨hp, -, he⟩ | ⟨-, -, he⟩ | ⟨b, hp, -, he⟩ | ⟨-, -, he⟩ | ⟨-, -, he⟩ <;>
    rw [he]
  · exact h
  · exact txStep_inv h hp
  · exact (h.bounded.complete _).inv_of_idle rfl
  · exact rxStep_inv h hp b
  · exact ((h.bounded.setRxrawLen 0).complete _).inv_of_idle rfl
  · exact ((h.bounded.setRxrawLen 0).complete _).inv_of_idle rfl

/-! ### The step -/

theorem State.Inv.respond {s : State} (h : s.Inv) (r : BusResponse) : (respond r s).Inv := { h with }

theorem State.Inv.schedule {s : State} (h : s.Inv) (rest : List Input) : (schedule rest s).Inv := { h with }

theorem State.Inv.dropWrite {s : State} (h : s.Inv) : (dropWrite s).Inv := { h with }

/-- Each of the six effects of an input keeps the invariant. -/
theorem StepEffect.inv {s t : State} {rest : List Input} {i : Input} (h : StepEffect s rest i t) (hinv : s.Inv) :
    t.Inv := by
  have hsched := hinv.schedule rest
  cases h with
  | read addr d => exact hsched.respond _
  | dropped addr v hp => exact (hsched.respond _).dropWrite
  | stored addr v hp ha =>
    have hidle := (writeTarget_fields (targetOf (addr - s.params.base)) v (respond .writeOk (schedule rest s))).2.1
    exact ((hsched.respond _).bounded.writeTarget _ v).inv_of_idle (hidle.trans hp)
  | accepted w hp => exact bodyOf_accept_inv (decodeCmd w) (hsched.respond _).bounded
  | channel e => exact channelEvent_inv hsched e
  | reset => exact hsched.bounded.resetBlock.inv_of_idle rfl

/-- Every step keeps the invariant (41 R75). -/
theorem step_inv {s t : State} (h : step s = .next t) (hinv : s.Inv) : t.Inv := by
  by_cases hne : t = s
  · rwa [hne]
  · obtain ⟨i, rest, -, heff⟩ := stepEffect_of_ne h hne
    exact heff.inv hinv

/-! ### Power-on -/

theorem powerOn_inv {p : Params} {draw : Memory} (hp : p.wellFormed = true) (hm : draw.legal p) :
    (State.powerOn p draw).Inv :=
  State.Bounded.inv_of_idle ⟨hp, hm, Nat.zero_le _, Nat.zero_le _, Nat.zero_le _⟩ rfl

theorem Memory.legal_nil (p : Params) : Memory.legal p [] := ⟨⟨List.Pairwise.nil, by simp⟩, by simp⟩

end Sys2Proof.Machine
end

section
/-! SUPPORT. The statements of 41_codec.md settled: O22 to O30, O49, O50, O51. -/

namespace Sys2Proof.Machine

/-- Settles O22: `Pack` as a sum, and injective because `Unpack` undoes it. -/
theorem packLayoutAndInjectivity : Obligations.PackLayoutAndInjectivity :=
  ⟨fun h => ⟨pack_toNat h, pack_reservedBits h⟩, fun _ _ heq => pack_injective heq, by decide⟩

/-- Settles O23: `Unpack` as numbers, and the two inverse laws. -/
theorem unpackInvertsPack : Obligations.UnpackInvertsPack := by
  refine ⟨fun b0 b1 => ?_, unpack_pack⟩
  obtain ⟨hattn, httl, hdlen, hpid⟩ := unpack_toNat b0 b1
  exact ⟨hattn, httl, hdlen, hpid, pack_unpack b0 b1⟩

/-- Settles O27: in range the strict check is the lenient one. -/
theorem strictEqualsLenientInRange : Obligations.StrictEqualsLenientInRange := by
  intro s hr
  by_cases hp : s.phase = .idle
  · have haccept (op : BitVec 3) : (accept op s).txInRange := hr
    simp only [exec_idle hp, bodyOf, runEncode_strict_of_inRange (haccept _), runExchange_strict_of_inRange (haccept _)]
    exact ⟨rfl, rfl⟩
  · simp only [exec_busy hp, and_self]

/-- Settles O25: the lenient check is the length check alone. -/
theorem encodeWritesTheFrame : Obligations.EncodeWritesTheFrame := by
  intro s hinv hp
  refine ⟨fun hlen => ?_, fun hlen => ?_⟩
  · exact exec_encodeInstr_frameStored (strict := false) hinv hp (encodeCheck_none hlen (by simp))
  · exact exec_encodeInstr_fail (strict := false) hp (encodeCheck_badLength hlen) (by decide)

/-- Settles O26: the length check first, then the range check, then what ENCODE does. -/
theorem strictEncodeChecksThenWrites : Obligations.StrictEncodeChecksThenWrites := by
  intro s hinv hp
  refine ⟨fun hlen hr => ⟨(strictEqualsLenientInRange s hr).1, ?_⟩, fun hlen hout => ?_, fun hlen => ?_⟩
  · exact exec_encodeInstr_frameStored (strict := true) hinv hp (encodeCheck_none hlen fun _ => hr)
  · have hr : ¬ s.txInRange := by unfold State.txInRange; omega
    exact exec_encodeInstr_fail (strict := true) hp (encodeCheck_outOfRange hlen hr) (by decide)
  · exact exec_encodeInstr_fail (strict := true) hp (encodeCheck_badLength hlen) (by decide)

/-- Settles O24: the header bytes in TXRAW unpack to the masked header. -/
theorem lenientEncodeMasksEachField : Obligations.LenientEncodeMasksEachField := by
  intro s hinv hp hlen
  obtain ⟨m, len, hexec, -, hstored⟩ :=
    exec_encodeInstr_frameStored (strict := false) hinv hp (encodeCheck_none hlen (by simp))
  refine ⟨_, hexec, rfl, ?_⟩
  simp only [State.entry, hstored.loadEntry_txraw hinv hlen (show 0 < 2 + _ by omega),
    hstored.loadEntry_txraw hinv hlen (show 1 < 2 + _ by omega), unpack_frameBytes]
  exact maskedHeader_toNat s.tx

/-- Settles O28: the three outcomes of DECODE by the length. -/
theorem decodeFillsTheReceiveFrame : Obligations.DecodeFillsTheReceiveFrame := by
  intro s hinv hp
  refine ⟨fun hlo hhi => ?_, exec_decode_frameTooShort hinv hp, exec_decode_badLength hp⟩
  exact ⟨_, exec_decode_pass hp hlo hhi, decodeMem_payloadStored hinv.params hinv.mem.1 hhi⟩

/-- Settles O29: RXRAW holds the frame of `s`, and its decode is the masked header and the payload. -/
theorem encodeCopyDecodeRoundTrip : Obligations.EncodeCopyDecodeRoundTrip := by
  intro s i hinv hp hlen hi
  obtain ⟨strict, rfl, hcheck⟩ : ∃ strict, i = encodeInstr strict ∧ encodeCheck strict s = .none := by
    rcases hi with rfl | ⟨rfl, hr⟩
    · exact ⟨false, rfl, encodeCheck_none hlen (by simp)⟩
    · exact ⟨true, rfl, encodeCheck_none hlen fun _ => hr⟩
  refine ⟨_, exec_encodeInstr_pass hp hcheck, fun u huinv hup hparams hulen hcopy => ?_⟩
  have hcount := toNat_two_add_plen hinv.params hlen
  have hb := Params.bounds hinv.params
  have hstored := encodeMem_frameStored hinv.params hinv.mem.1 hlen
  have hn : u.rxrawLen.toNat = 2 + s.tx.plen.toNat := by rw [hulen, hcount]
  have hcap : u.rxrawLen.toNat ≤ u.params.bufBytes := by rw [hn, hparams]; dsimp only; omega
  obtain ⟨v, hexec, herr, hrx, hpay⟩ := exec_decode_of_frame huinv hup hulen hn hcap fun k hk =>
    (hcopy k (hcount.symm ▸ hk)).trans (hstored.loadEntry_txraw hinv hlen hk)
  refine ⟨v, hexec, herr, ?_⟩
  obtain ⟨mattn, mttl, mdlen, mpid⟩ := maskedHeader_toNat s.tx
  simp only [readReg, hrx, toNat_zext32 (show 4 ≤ 32 by decide), toNat_zext32 (show 2 ≤ 32 by decide),
    toNat_zext32 (show 3 ≤ 32 by decide), toNat_zext32 (show 5 ≤ 32 by decide)]
  exact ⟨zext32_maskedHeader, mattn, mttl, mdlen, mpid, trivial, hpay⟩

/-- Settles O30: the two halves, of the encodes and of DECODE. -/
theorem codecReadsOnlyItsOperands : Obligations.CodecReadsOnlyItsOperands := by
  intro s s' hinv hinv' hp hp' hparams
  refine ⟨?_, fun hlen hraw => exec_decode_congr hinv hinv' hp hp' hparams hlen hraw⟩
  rintro i (rfl | rfl) htx hpay
  · exact exec_encodeInstr_congr (strict := false) hinv hinv' hp hp' hparams htx hpay
  · exact exec_encodeInstr_congr (strict := true) hinv hinv' hp hp' hparams htx hpay

/-- Settles O50: the six effects of an input keep the invariant, and none the parameters. -/
theorem everyStepKeepsTheInvariant : Obligations.EveryStepKeepsTheInvariant :=
  fun _ _ hinv h => ⟨step_inv h hinv, (step_inputs h).2⟩

/-- Settles O51: each index is below a length or a counter that the invariant or a check bounds. -/
theorem engineIndicesStayInBounds : Obligations.EngineIndicesStayInBounds := by
  intro s hinv used
  have hb := Params.bounds hinv.params
  have huses (b : Buf) {i : Nat} (hi : i < s.params.bufBytes) : used b i := ⟨hi, isBacked_entryOffset b hb.2.1 hi⟩
  refine ⟨fun hp => ?_, fun hp => ?_, fun strict hcheck => ?_, fun t hp h herr => ?_, fun hp _ => ?_⟩
  · obtain ⟨hlt, hlen⟩ := hinv.txCnt_lt hp
    exact huses _ (by omega)
  · obtain ⟨hlt, hlen⟩ := hinv.rxCnt_lt hp
    exact huses _ (by omega)
  · have hlen := plen_le_of_encodeCheck hcheck
    exact ⟨fun k hk => huses _ (by omega), fun k hk => huses _ (by omega)⟩
  · obtain ⟨hlo, hhi⟩ := rxrawLen_of_exec_decode hp h herr
    exact ⟨hlo, hhi, fun k hk => huses _ (by omega), fun k hk => huses _ (by omega)⟩
  · obtain ⟨-, hlen⟩ := hinv.rxCnt_lt hp
    exact ⟨hlen, fun k hk => huses _ (by omega), fun k hk => huses _ (by omega)⟩

/-- Settles O49: power-on is idle with every counter 0, and State.reset is a power-on with nothing listed. -/
theorem invariantHoldsAfterPowerOn : Obligations.InvariantHoldsAfterPowerOn :=
  ⟨powerOn_inv (by decide) (Memory.legal_nil _), fun _ _ hp hm => powerOn_inv hp hm⟩

end Sys2Proof.Machine
end

section
/-! SUPPORT. The acceptance steps of EXCHANGE, EXCHANGE.S and SEND_ONLY on an idle block: the next state with the checks
passed and with each check failed (42 R89 to R91). -/

namespace Sys2Proof.Machine

/-- An idle block on which a transfer command completes at acceptance: the counters are cleared too
(42 R89, R91). -/
theorem complete_clearCounts_accept_idle {s : State} (h : s.phase = .idle) (code : ErrCode) (op : BitVec 3) :
    complete code (clearCounts (accept op s)) =
      { s with err := code, lastop := op, dropped := false, txCnt := 0, rxCnt := 0 } := by
  rw [complete, ← h]
  rfl

/-! ### EXCHANGE and EXCHANGE.S -/

/-- EXCHANGE or, when strict, EXCHANGE.S (42 R89, R90). -/
def exchangeInstr (strict : Bool) : Instr :=
  match strict with
  | false => .exchange
  | true => .exchangeS

section
variable {strict : Bool} {s : State} (hp : s.phase = .idle)
include hp

theorem exec_exchangeInstr : exec (exchangeInstr strict) s = .next (runExchange strict (accept 0b011 s)) := by
  cases strict
  · exact exec_idle hp
  · exact exec_idle hp

/-- An exchange whose checks pass leaves the frame in TXRAW and enters phase TX (42 R89). -/
theorem exec_exchangeInstr_pass (hinv : s.Inv) (hreply : s.replySize.toNat ≤ s.params.bufBytes)
    (hcheck : encodeCheck strict s = .none) :
    ∃ (m : Memory) (len : Word),
      exec (exchangeInstr strict) s = .next { s with
        err := .none, lastop := 0b011, dropped := false, txCnt := 0, rxCnt := 0, txrawLen := len, mem := m,
        curop := .exchange, phase := .tx } ∧
      len.toNat = 2 + s.tx.plen.toNat ∧ s.frameStored m := by
  have hlen := plen_le_of_encodeCheck hcheck
  have hrun : runExchange strict (accept 0b011 s) = startTx .exchange (encodeBody (clearCounts (accept 0b011 s))) :=
    (if_neg (Nat.not_lt.mpr hreply)).trans (if_pos hcheck)
  refine ⟨encodeMem s, 2 + s.tx.plen, ?_, toNat_two_add_plen hinv.params hlen,
    encodeMem_frameStored hinv.params hinv.mem.1 hlen⟩
  rw [exec_exchangeInstr hp, hrun]
  rfl

/-- With a legal reply size a failed encode check is reported, and nothing is encoded (42 R89, R90). -/
theorem exec_exchangeInstr_fail {code : ErrCode} (hreply : s.replySize.toNat ≤ s.params.bufBytes)
    (hcheck : encodeCheck strict s = code) (hcode : code ≠ .none) :
    exec (exchangeInstr strict) s = .next { s with
      err := code, lastop := 0b011, dropped := false, txCnt := 0, rxCnt := 0 } := by
  subst hcheck
  have hrun : runExchange strict (accept 0b011 s) =
      complete (encodeCheck strict s) (clearCounts (accept 0b011 s)) :=
    (if_neg (Nat.not_lt.mpr hreply)).trans (if_neg hcode)
  rw [exec_exchangeInstr hp, hrun, complete_clearCounts_accept_idle hp]

/-- BAD_LENGTH is checked first, of the reply and then of the payload (42 R89, 60 R112). -/
theorem exec_exchangeInstr_badLength
    (h : s.params.bufBytes < s.replySize.toNat ∨ s.params.bufBytes - 2 < s.tx.plen.toNat) :
    exec (exchangeInstr strict) s = .next { s with
      err := .badLength, lastop := 0b011, dropped := false, txCnt := 0, rxCnt := 0 } := by
  by_cases hreply : s.params.bufBytes < s.replySize.toNat
  · have hrun : runExchange strict (accept 0b011 s) = complete .badLength (clearCounts (accept 0b011 s)) :=
      if_pos hreply
    rw [exec_exchangeInstr hp, hrun, complete_clearCounts_accept_idle hp]
  · exact exec_exchangeInstr_fail hp (Nat.not_lt.mp hreply) (encodeCheck_badLength (h.resolve_left hreply)) (by decide)

/-! ### SEND_ONLY -/

theorem exec_sendOnly_start (hpos : 0 < s.txrawLen.toNat) (hlen : s.txrawLen.toNat ≤ s.params.bufBytes) :
    exec .sendOnly s = .next { s with
      err := .none, lastop := 0b100, dropped := false, txCnt := 0, rxCnt := 0, curop := .sendOnly, phase := .tx } := by
  have hne : s.txrawLen ≠ 0 := fun h => by simp [h] at hpos
  have hrun : runSendOnly (accept 0b100 s) = startTx .sendOnly (clearCounts (accept 0b100 s)) :=
    (if_neg (Nat.not_lt.mpr hlen)).trans (if_neg hne)
  exact (exec_idle hp).trans (congrArg _ hrun)

theorem exec_sendOnly_empty (h : s.txrawLen = 0) :
    exec .sendOnly s = .next { s with
      err := .none, lastop := 0b100, dropped := false, txCnt := 0, rxCnt := 0 } := by
  have hle : ¬ s.txrawLen.toNat > s.params.bufBytes := by simp [h]
  have hrun : runSendOnly (accept 0b100 s) = complete .none (clearCounts (accept 0b100 s)) :=
    (if_neg hle).trans (if_pos h)
  rw [← complete_clearCounts_accept_idle hp, ← hrun]
  exact exec_idle hp

theorem exec_sendOnly_badLength (h : s.params.bufBytes < s.txrawLen.toNat) :
    exec .sendOnly s = .next { s with
      err := .badLength, lastop := 0b100, dropped := false, txCnt := 0, rxCnt := 0 } := by
  have hrun : runSendOnly (accept 0b100 s) = complete .badLength (clearCounts (accept 0b100 s)) := if_pos h
  rw [← complete_clearCounts_accept_idle hp, ← hrun]
  exact exec_idle hp

end

end Sys2Proof.Machine
end

section
/-! SUPPORT. The engine steps as equations: the step of each enabled channel event, what ends the transmit and the
receive phase, and which bytes leave the block (42 R87, R92 to R96). -/

namespace Sys2Proof.Machine

/-! ### Events -/

/-- An event outside its phase has no effect (42 R87, log 3). -/
theorem channelEvent_notEnabled {e : ChannelEvent} {s : State} (h : s.phase ≠ e.enabledIn) : channelEvent e s = s := by
  rcases channelEvent_cases e s with ⟨-, he⟩ | ⟨hp, rfl, -⟩ | ⟨hp, rfl, -⟩ | ⟨b, hp, rfl, -⟩ | ⟨hp, rfl, -⟩ |
    ⟨hp, rfl, -⟩
  · exact he
  all_goals exact absurd hp h

section
variable {s : State} {rest : List Input}

theorem step_acceptTx (hp : s.phase = .tx) (hi : s.inputs = .channel .acceptTx :: rest) :
    step s = .next (afterTx { s with
      inputs := rest, sent := s.sent ++ [s.entry .txraw s.txCnt.toNat], txCnt := s.txCnt + 1 }) := by
  rw [step_channel hi]
  simp [channelEvent, hp, txStep, takeByte, schedule, State.entry]

theorem step_writeFault (hp : s.phase = .tx) (hi : s.inputs = .channel .writeFault :: rest) :
    step s = .next { s with inputs := rest, err := .channelWriteError, phase := .idle } := by
  rw [step_channel hi]
  simp [channelEvent, hp, writeFailure, complete, schedule]

theorem step_deliver {b : Byte} (hp : s.phase = .rx) (hi : s.inputs = .channel (.deliver b) :: rest) :
    step s = .next (afterRx { s with
      inputs := rest, mem := storeEntry s.params .rxraw s.rxCnt.toNat b s.mem, rxCnt := s.rxCnt + 1 }) := by
  rw [step_channel hi]
  simp [channelEvent, hp, rxStep, putByte, schedule]

theorem step_readFault (hp : s.phase = .rx) (hi : s.inputs = .channel .readFault :: rest) :
    step s = .next { s with inputs := rest, rxrawLen := 0, err := .channelReadError, phase := .idle } := by
  rw [step_channel hi]
  simp [channelEvent, hp, readFailure, complete, schedule]

theorem step_timeout (hp : s.phase = .rx) (hi : s.inputs = .channel .timeout :: rest) :
    step s = .next { s with inputs := rest, rxrawLen := 0, err := .channelTimeout, phase := .idle } := by
  rw [step_channel hi]
  simp [channelEvent, hp, readFailure, complete, schedule]

end

/-! ### The end of a phase -/

section
variable {s : State}

theorem afterTx_more (h : s.txCnt ≠ s.txrawLen) : afterTx s = s := if_neg h

theorem afterTx_sendOnly (h : s.txCnt = s.txrawLen) (hop : s.curop = .sendOnly) : afterTx s = complete .none s := by
  rw [afterTx, if_pos h, hop]

theorem afterTx_exchange (h : s.txCnt = s.txrawLen) (hop : s.curop = .exchange) (hreply : s.replySize ≠ 0) :
    afterTx s = { s with phase := .rx } := by
  rw [afterTx, if_pos h, hop]
  exact if_neg hreply

theorem afterTx_noReply (h : s.txCnt = s.txrawLen) (hop : s.curop = .exchange) (hreply : s.replySize = 0) :
    afterTx s = complete .replyMalformed { s with rxrawLen := 0 } := by
  rw [afterTx, if_pos h, hop]
  simp [hreply, readDone, complete]

theorem afterRx_more (h : s.rxCnt ≠ s.replySize) : afterRx s = s := if_neg h

theorem afterRx_last (h : s.rxCnt = s.replySize) : afterRx s = readDone s := if_pos h

/-- An entry with storage holds the byte at its offset (20 R40). -/
theorem State.entry_eq_load {i : Nat} (b : Buf) (hi : i < s.params.bufBytes) :
    s.entry b i = s.mem.load (entryOffset b i) := if_pos hi

theorem readDone_malformed (h : s.replySize.toNat < 2) :
    readDone s = complete .replyMalformed { s with rxrawLen := s.replySize } := if_pos h

/-- A reply of 2 bytes and more is decoded into the RX registers and RXPAY (42 R94, 41 R81). -/
theorem readDone_decode (hparams : s.params.wellFormed = true) (hm : s.mem.wf) (hlo : 2 ≤ s.replySize.toNat)
    (hhi : s.replySize.toNat ≤ s.params.bufBytes) :
    ∃ m, payloadStored s.params s.replySize.toNat s.mem m ∧
      readDone s = { s with
        mem := m, rxrawLen := s.replySize, err := .none, phase := .idle,
        rx := rxFrameOf (s.mem.load (entryOffset .rxraw 0)) (s.mem.load (entryOffset .rxraw 1)) s.replySize } := by
  refine ⟨decodeMem s.replySize s, decodeMem_payloadStored hparams hm hhi, ?_⟩
  rw [← s.entry_eq_load .rxraw (show 0 < _ by omega), ← s.entry_eq_load .rxraw (show 1 < _ by omega)]
  exact if_neg (Nat.not_lt.mpr hlo)

end

/-! ### The bytes that leave the block -/

theorem State.offered_tx {s : State} (hp : s.phase = .tx) : s.offered = some (s.entry .txraw s.txCnt.toNat) := by
  rw [State.offered, hp]

theorem txStep_sent (s : State) : (txStep s).sent = s.sent ++ [s.entry .txraw s.txCnt.toNat] := by
  rcases afterTx_cases (takeByte s) with ⟨-, h⟩ | ⟨-, -, h⟩ | ⟨-, -, -, h⟩ | ⟨-, -, -, h⟩ <;> simp [txStep, h]

theorem rxStep_sent (b : Byte) (s : State) : (rxStep b s).sent = s.sent := by
  rcases afterRx_cases (putByte b s) with ⟨-, h⟩ | ⟨-, h⟩ <;> simp [rxStep, h, readDone_fields]

/-- A channel event takes a byte from the block only as an accept in phase TX, and then the offered one (42 R92). -/
theorem channelEvent_sent (e : ChannelEvent) (s : State) :
    (channelEvent e s).sent = s.sent ∨
    (SendsByte s (.channel e) ∧ (channelEvent e s).sent = s.sent ++ [s.entry .txraw s.txCnt.toNat]) := by
  rcases channelEvent_cases e s with ⟨-, he⟩ | ⟨hp, rfl, he⟩ | ⟨-, -, he⟩ | ⟨b, -, -, he⟩ | ⟨-, -, he⟩ | ⟨-, -, he⟩ <;>
    rw [he]
  · exact .inl rfl
  · exact .inr ⟨⟨hp, rfl⟩, txStep_sent s⟩
  · exact .inl rfl
  · exact .inl (rxStep_sent b s)
  · exact .inl rfl
  · exact .inl rfl

end Sys2Proof.Machine
end

section
/-! SUPPORT. Runs of the engine: the invariant along a run, a busy block under host accesses alone, the transmit and the
receive phase to their last byte, and the two halves of an exchange (42 R89 to R94, R97). -/

namespace Sys2Proof.Machine

/-- A run that answers a next state took its first step, and went on from there. -/
theorem exists_step_of_run_succ {n : Nat} {s t : State} (h : Sys2Proof.core.run (n + 1) s = .next t) :
    ∃ u, step s = .next u ∧ Sys2Proof.core.run n u = .next t := by
  have hc : Sys2Proof.core.step s = step s := rfl
  cases hs : step s with
  | next u => exact ⟨u, rfl, (run_succ hs).symm.trans h⟩
  | fault f => simp [Host.Core.run, hc, hs] at h
  | refused r => simp [Host.Core.run, hc, hs] at h

/-- The invariant holds along every run (41 R75). -/
theorem run_inv {n : Nat} {s t : State} (h : Sys2Proof.core.run n s = .next t) (hinv : s.Inv) : t.Inv := by
  induction n generalizing s with
  | zero =>
    rw [run_zero] at h
    injection h with h
    exact h ▸ hinv
  | succ n ih =>
    obtain ⟨u, hstep, hrun⟩ := exists_step_of_run_succ h
    exact ih hrun (step_inv hstep hinv)

/-! ### Host accesses while busy -/

/-- A step of a busy block that takes a host access changes the schedule, the response and DROPPED alone (40 R69). -/
theorem step_host_busy {s t : State} (hp : s.phase ≠ .idle) (hhost : ∀ i ∈ s.inputs, ∃ a, i = .host a)
    (h : step s = .next t) : ∃ r d, t = { s with inputs := s.inputs.tail, response := r, dropped := d } := by
  cases hi : s.inputs with
  | nil =>
    rw [step_nil hi] at h
    injection h with h
    exact ⟨s.response, s.dropped, by rw [← h, List.tail_nil, ← hi]⟩
  | cons i rest =>
    obtain ⟨a, ha⟩ := hhost i (by simp [hi])
    cases stepEffect_of_step hi h with
    | read addr d => exact ⟨_, _, rfl⟩
    | dropped addr v _ => exact ⟨_, _, rfl⟩
    | stored addr v hidle _ => exact absurd hidle hp
    | accepted w hidle => exact absurd hidle hp
    | channel e => cases ha
    | reset => cases ha

/-- However many host accesses a busy block serves, it stays as it is (42 R97). -/
theorem run_host_busy (n : Nat) {s : State} (hp : s.phase ≠ .idle) (hsafe : s.safe = true)
    (hhost : ∀ i ∈ s.inputs, ∃ a, i = .host a) :
    ∃ rest r d, Sys2Proof.core.run n s = .next { s with inputs := rest, response := r, dropped := d } := by
  induction n generalizing s with
  | zero => exact ⟨s.inputs, s.response, s.dropped, run_zero s⟩
  | succ n ih =>
    obtain ⟨t, ht, htsafe⟩ := step_safe hsafe
    obtain ⟨r, d, rfl⟩ := step_host_busy hp hhost ht
    rw [run_succ ht]
    exact ih hp htsafe fun i hi => hhost i (List.mem_of_mem_tail hi)

/-! ### The transmit phase -/

/-- One accept for each byte left: the channel takes them in order, and then the phase ends (42 R92). -/
theorem run_acceptTx {s : State} {n : Nat} {rest : List Input} (hinv : s.Inv) (hp : s.phase = .tx)
    (hn : s.txCnt.toNat + n = s.txrawLen.toNat) (hin : s.inputs = List.replicate n (.channel .acceptTx) ++ rest) :
    Sys2Proof.core.run n s = .next (afterTx { s with
      inputs := rest, sent := s.sent ++ (List.range' s.txCnt.toNat n).map (s.entry .txraw), txCnt := s.txrawLen }) := by
  induction n generalizing s with
  | zero =>
    have hlt := (hinv.txCnt_lt hp).1
    omega
  | succ n ih =>
    have hcnt := toNat_add_one_of_lt (hinv.txCnt_lt hp).1
    have hin : s.inputs = .channel .acceptTx :: (List.replicate n (.channel .acceptTx) ++ rest) := hin
    have hstep := step_acceptTx hp hin
    by_cases hlast : s.txCnt + 1 = s.txrawLen
    · obtain rfl : n = 0 := by rw [← hlast] at hn; omega
      rw [run_succ hstep, run_zero, hlast]
      rfl
    · have hmore := hstep.trans (congrArg _ (afterTx_more hlast))
      have hleft : (s.txCnt + 1).toNat + n = s.txrawLen.toNat := by omega
      rw [run_succ hmore, ih (step_inv hmore hinv) hp hleft rfl]
      simp only [hcnt, List.append_assoc]
      rfl

/-! ### The receive phase -/

/-- One delivery for each byte missing: they go to RXRAW in order, and then the phase ends (42 R93). -/
theorem run_deliver {s : State} {bs : List Byte} (hinv : s.Inv) (hp : s.phase = .rx)
    (hn : s.rxCnt.toNat + bs.length = s.replySize.toNat) (hin : s.inputs = bs.map fun b => .channel (.deliver b)) :
    ∃ m : Memory, m.wf ∧ bytesStored .rxraw s.rxCnt.toNat bs s.mem m ∧
      Sys2Proof.core.run bs.length s = .next (readDone { s with inputs := [], mem := m, rxCnt := s.replySize }) := by
  induction bs generalizing s with
  | nil =>
    have hlt := (hinv.rxCnt_lt hp).1
    rw [List.length_nil] at hn
    omega
  | cons b bs ih =>
    obtain ⟨hlt, hlen⟩ := hinv.rxCnt_lt hp
    have hcnt := toNat_add_one_of_lt hlt
    rw [List.length_cons] at hn ⊢
    have hstep := step_deliver hp hin
    have hwf := hinv.mem.1
    have hhead : byteStored .rxraw s.rxCnt.toNat b s.mem (storeEntry s.params .rxraw s.rxCnt.toNat b s.mem) :=
      storeEntry_byteStored hwf (by omega)
    by_cases hlast : s.rxCnt + 1 = s.replySize
    · obtain rfl : bs = [] := List.eq_nil_of_length_eq_zero (by rw [← hlast] at hn; omega)
      refine ⟨_, storeEntry_wf hwf, bytesStored_cons hhead (bytesStored_nil ..), ?_⟩
      rw [run_succ (hstep.trans (congrArg _ (afterRx_last hlast))), hlast]
      rfl
    · have hmore := hstep.trans (congrArg _ (afterRx_more hlast))
      have hleft : (s.rxCnt + 1).toNat + bs.length = s.replySize.toNat := by omega
      obtain ⟨m, hm, hstored, hrun⟩ := ih (step_inv hmore hinv) hp hleft rfl
      rw [run_succ hmore]
      exact ⟨m, hm, bytesStored_cons hhead (hcnt ▸ hstored), hrun⟩

/-! ### Whole commands -/

section
variable {s : State} {w : Word} {rest : List Input}

/-- The CMD write of a SEND_ONLY with something to send (42 R91). -/
theorem step_sendOnly_start (hp : s.phase = .idle) (hw : decodeCmd w = .sendOnly) (hpos : 0 < s.txrawLen.toNat)
    (hlen : s.txrawLen.toNat ≤ s.params.bufBytes) (hin : s.inputs = cmdWrite s.params w :: rest) :
    step s = .next { s with
      inputs := rest, response := some .writeOk, err := .none, lastop := 0b100, dropped := false, txCnt := 0,
      rxCnt := 0, curop := .sendOnly, phase := .tx } := by
  rw [step_cmdWrite hin, hw]
  exact exec_sendOnly_start (s := respond .writeOk (schedule rest s)) hp hpos hlen

/-- The CMD write of an exchange whose checks pass (42 R89, R90). -/
theorem step_exchangeInstr_pass {strict : Bool} (hinv : s.Inv) (hp : s.phase = .idle)
    (hw : decodeCmd w = exchangeInstr strict) (hcheck : encodeCheck strict s = .none)
    (hreply : s.replySize.toNat ≤ s.params.bufBytes) (hin : s.inputs = cmdWrite s.params w :: rest) :
    ∃ (m : Memory) (len : Word),
      step s = .next { s with
        inputs := rest, response := some .writeOk, err := .none, lastop := 0b011, dropped := false, txCnt := 0,
        rxCnt := 0, txrawLen := len, mem := m, curop := .exchange, phase := .tx } ∧
      len.toNat = 2 + s.tx.plen.toNat ∧ s.frameStored m := by
  rw [step_cmdWrite hin, hw]
  exact exec_exchangeInstr_pass (s := respond .writeOk (schedule rest s)) hp ((hinv.schedule rest).respond _) hreply
    hcheck

end

/-- From the CMD write of an exchange to its last accept: the channel takes the frame, and phase RX is entered
(42 R89, R90, R92). -/
theorem run_request {s : State} {w : Word} {strict : Bool} {rest : List Input} (hinv : s.Inv) (hp : s.phase = .idle)
    (hw : decodeCmd w = exchangeInstr strict) (hcheck : encodeCheck strict s = .none) (hpos : s.replySize ≠ 0)
    (hreply : s.replySize.toNat ≤ s.params.bufBytes)
    (hin : s.inputs = cmdWrite s.params w :: (List.replicate (2 + s.tx.plen.toNat) (.channel .acceptTx) ++ rest)) :
    ∃ (m : Memory) (len : Word),
      Sys2Proof.core.run (1 + (2 + s.tx.plen.toNat)) s = .next { s with
        inputs := rest, response := some .writeOk, err := .none, lastop := 0b011, dropped := false, curop := .exchange,
        phase := .rx, txrawLen := len, txCnt := len, rxCnt := 0, mem := m,
        sent := s.sent ++ (List.range (2 + s.tx.plen.toNat)).map s.frameByte } ∧
      len.toNat = 2 + s.tx.plen.toNat := by
  obtain ⟨m, len, hcmd, hcount, hframe⟩ := step_exchangeInstr_pass hinv hp hw hcheck hreply hin
  have hsend := run_acceptTx (step_inv hcmd hinv) rfl ((Nat.zero_add _).trans hcount.symm) rfl
  have hbytes : (List.range (2 + s.tx.plen.toNat)).map s.frameByte =
      (List.range' 0 (2 + s.tx.plen.toNat)).map fun k => loadEntry s.params .txraw k m := by
    rw [List.range_eq_range']
    refine List.map_congr_left fun k hk => ?_
    rw [List.mem_range'_1, Nat.zero_add] at hk
    exact (hframe.loadEntry_txraw hinv (plen_le_of_encodeCheck hcheck) hk.2).symm
  refine ⟨m, len, ?_, hcount⟩
  rw [Nat.add_comm, run_succ hcmd, hsend, hbytes]
  exact congrArg Host.Outcome.next (afterTx_exchange (by rfl) (by rfl) hpos)

/-- From the start of phase RX to the last byte of a reply of 2 bytes and more: the reply stands in RXRAW and is decoded
(42 R93, R94). -/
theorem run_reply {s : State} {reply : List Byte} (hinv : s.Inv) (hp : s.phase = .rx) (h0 : s.rxCnt = 0)
    (hlo : 2 ≤ s.replySize.toNat) (hreply : reply.length = s.replySize.toNat)
    (hin : s.inputs = reply.map fun b => .channel (.deliver b)) :
    ∃ m m' : Memory, bytesStored .rxraw 0 reply s.mem m ∧ payloadStored s.params reply.length m m' ∧
      Sys2Proof.core.run reply.length s = .next { s with
        inputs := [], mem := m', rxCnt := s.replySize, rxrawLen := s.replySize, err := .none, phase := .idle,
        rx := rxFrameOf (m.load (entryOffset .rxraw 0)) (m.load (entryOffset .rxraw 1)) s.replySize } := by
  obtain ⟨m, hwf, hstored, hrun⟩ := run_deliver hinv hp (by simp [h0, hreply]) hin
  obtain ⟨m', hpay, hdone⟩ := readDone_decode (s := { s with inputs := [], mem := m, rxCnt := s.replySize })
    hinv.params hwf hlo (hinv.rxCnt_lt hp).2
  rw [h0] at hstored
  exact ⟨m, m', hstored, hreply ▸ hpay, hrun.trans (congrArg Host.Outcome.next hdone)⟩

/-- After the decode of a reply RXRAW still holds it, and RXPAY its bytes after the first two (41 R81). -/
theorem loadEntry_reply {p : Params} {reply : List Byte} {m m' m'' : Memory} (hp : p.wellFormed = true)
    (hlen : reply.length ≤ p.bufBytes) (hraw : bytesStored .rxraw 0 reply m m')
    (hpay : payloadStored p reply.length m' m'') :
    (∀ k (h : k < reply.length), loadEntry p .rxraw k m'' = reply[k]) ∧
      ∀ k (h : 2 + k < reply.length), loadEntry p .rxpay k m'' = reply[2 + k] := by
  obtain ⟨hbytes, -⟩ := hraw
  obtain ⟨hcopy, hframe⟩ := hpay
  have hb := Params.bounds hp
  have hload (k : Nat) (h : k < reply.length) : loadEntry p .rxraw k m' = reply[k] := by
    rw [loadEntry, if_pos (by omega), ← hbytes k h, Nat.zero_add]
  refine ⟨fun k h => ?_, fun k h => ?_⟩
  · have hapart : ∀ j < reply.length - 2, entryOffset .rxraw k ≠ entryOffset .rxpay j := fun j hj he => by
      have := entryOffset_inj (by omega) (by omega) he
      simp at this
    rw [← hload k h, loadEntry, if_pos (by omega), hframe _ hapart, loadEntry, if_pos (by omega)]
  · rw [loadEntry, if_pos (by omega), hcopy k (by omega), hload]

end Sys2Proof.Machine
end

section
/-! SUPPORT. The statements of 42_exchange.md settled: O31, O32, O33, O36 to O41, O46, O52, O53. -/

namespace Sys2Proof.Machine

/-- Settles O31: the lenient check is the length check alone. -/
theorem exchangeEntersTransmitPhase : Obligations.ExchangeEntersTransmitPhase := fun _ hinv hp =>
  ⟨fun hreply hlen => exec_exchangeInstr_pass (strict := false) hp hinv hreply (encodeCheck_none hlen (by simp)),
    exec_exchangeInstr_badLength (strict := false) hp⟩

/-- Settles O32: the length checks first, then the range check, then what EXCHANGE does. -/
theorem strictExchangeChecksThenTransmits : Obligations.StrictExchangeChecksThenTransmits := by
  intro s hinv hp
  refine ⟨fun hreply hlen hr => ?_, fun hreply hlen hr => ?_, exec_exchangeInstr_badLength (strict := true) hp⟩
  · exact exec_exchangeInstr_pass (strict := true) hp hinv hreply (encodeCheck_none hlen fun _ => hr)
  · exact exec_exchangeInstr_fail (strict := true) hp hreply (encodeCheck_outOfRange hlen hr) (by decide)

/-- Settles O33: the three outcomes of SEND_ONLY by TXRAW_LEN. -/
theorem sendOnlyEntersTransmitPhase : Obligations.SendOnlyEntersTransmitPhase := fun _ hp =>
  ⟨exec_sendOnly_start hp, exec_sendOnly_empty hp, exec_sendOnly_badLength hp⟩

/-- Settles O36: the accept takes the offered byte, and the four ends of a transmit step. -/
theorem transmitStepSendsTheOfferedByte : Obligations.TransmitStepSendsTheOfferedByte := by
  intro s rest hinv hp hi b
  obtain ⟨hlt, hlen⟩ := hinv.txCnt_lt hp
  have hb : s.entry .txraw s.txCnt.toNat = b := s.entry_eq_load .txraw (by omega)
  have hstep := step_acceptTx hp hi
  rw [hb] at hstep
  refine ⟨hb ▸ State.offered_tx hp, s.txCnt + 1, toNat_add_one_of_lt hlt, fun hmore => ?_, fun hlast hop => ?_,
    fun hlast hop hreply => ?_, fun hlast hop hreply => ?_⟩
  · exact hstep.trans (congrArg Host.Outcome.next (afterTx_more hmore))
  · exact hstep.trans (congrArg Host.Outcome.next (afterTx_sendOnly hlast hop))
  · exact hstep.trans (congrArg Host.Outcome.next (afterTx_exchange hlast hop hreply))
  · exact hstep.trans (congrArg Host.Outcome.next (afterTx_noReply hlast hop hreply))

/-- Settles O37: the delivery stores the byte, and the three ends of a receive step. -/
theorem receiveStepStoresTheByte : Obligations.ReceiveStepStoresTheByte := by
  intro s b rest hinv hp hi
  obtain ⟨hlt, hlen⟩ := hinv.rxCnt_lt hp
  have hwf := hinv.mem.1
  have hstep := step_deliver hp hi
  have hstored : byteStored .rxraw s.rxCnt.toNat b s.mem (storeEntry s.params .rxraw s.rxCnt.toNat b s.mem) :=
    storeEntry_byteStored hwf (by omega)
  refine ⟨_, s.rxCnt + 1, hstored, toNat_add_one_of_lt hlt, fun hmore => ?_, fun hlast hshort => ?_,
    fun hlast hlo => ?_⟩
  · exact hstep.trans (congrArg Host.Outcome.next (afterRx_more hmore))
  · exact hstep.trans (congrArg Host.Outcome.next ((afterRx_last hlast).trans (readDone_malformed hshort)))
  · obtain ⟨m, hpay, hdone⟩ := readDone_decode (s := { s with
      inputs := rest, mem := storeEntry s.params .rxraw s.rxCnt.toNat b s.mem, rxCnt := s.rxCnt + 1 })
      hinv.params (storeEntry_wf hwf) hlo hlen
    exact ⟨m, hpay, hstep.trans (congrArg Host.Outcome.next ((afterRx_last hlast).trans hdone))⟩

/-- Settles O38, by the steps of the two failures. -/
theorem readFailuresInvalidateTheReply : Obligations.ReadFailuresInvalidateTheReply :=
  fun _ _ hp => ⟨step_readFault hp, step_timeout hp⟩

/-- Settles O39: the invariant has RX_CNT at 0 in phase TX. -/
theorem writeFailureEndsTheTransmission : Obligations.WriteFailureEndsTheTransmission :=
  fun _ _ hinv hp hi => ⟨(hinv.txLeft hp).2, step_writeFault hp hi⟩

/-- Settles O40: each pair named is an event outside its phase. -/
theorem eventsNotEnabledHaveNoEffect : Obligations.EventsNotEnabledHaveNoEffect := by
  intro s e rest hi hpair
  have hphase : s.phase ≠ e.enabledIn := by
    rcases hpair with ⟨hp | hp, rfl | rfl⟩ | ⟨hp | hp, rfl | rfl | ⟨b, rfl⟩⟩ <;> simp [hp, ChannelEvent.enabledIn]
  rw [step_channel hi, channelEvent_notEnabled (s := schedule rest s) hphase]
  rfl

/-- Settles O41, by the run of host accesses on a busy block. -/
theorem aBusyBlockWithoutEventsStaysBusy : Obligations.ABusyBlockWithoutEventsStaysBusy :=
  fun n _ hp hsafe hhost => run_host_busy n hp hsafe hhost

/-- Settles O46: of the six effects of an input only a channel event can send, and only as an accept. -/
theorem onlyOfferedBytesLeaveTheBlock : Obligations.OnlyOfferedBytesLeaveTheBlock := by
  intro s t h hne
  obtain ⟨i, rest, hi, heff⟩ := stepEffect_of_ne h fun heq => hne (by rw [heq])
  cases heff with
  | read addr d => exact absurd rfl hne
  | dropped addr v hp => exact absurd rfl hne
  | stored addr v hp ha => simp [writeTarget_fields] at hne
  | accepted w hp => simp [bodyOf_fields] at hne
  | channel e =>
    obtain ⟨⟨hp, he⟩, hsent⟩ := (channelEvent_sent e (schedule rest s)).resolve_left hne
    exact ⟨hp, ⟨rest, he ▸ hi⟩, _, State.offered_tx hp, hsent⟩
  | reset => exact absurd rfl hne

/-- Settles O52: the CMD write enters phase TX, and the accepts send TXRAW and end the command. -/
theorem sendOnlySendsTheRawBytes : Obligations.SendOnlySendsTheRawBytes := by
  intro s w n hinv hp hw hn hpos hlen hin
  have hcmd := step_sendOnly_start hp hw (hn ▸ hpos) (hn ▸ hlen) hin
  have hsend := run_acceptTx (n := n) (rest := []) (step_inv hcmd hinv) rfl (by simpa using hn.symm) (by simp)
  have hbytes : (List.range n).map (fun k => s.mem.load (entryOffset .txraw k)) =
      (List.range' 0 n).map (s.entry .txraw) := by
    rw [List.range_eq_range']
    refine List.map_congr_left fun k hk => (s.entry_eq_load .txraw ?_).symm
    rw [List.mem_range'_1] at hk
    omega
  rw [Nat.add_comm, run_succ hcmd, hsend, hbytes]
  exact congrArg Host.Outcome.next (afterTx_sendOnly (by rfl) (by rfl))

/-- Settles O53: the request is sent from acceptance on, and the reply is stored and decoded. -/
theorem exchangeCompletesWithTheReply : Obligations.ExchangeCompletesWithTheReply := by
  intro s w reply hinv hp hw hlen hlo hhi hreply hin
  obtain ⟨strict, hw, hcheck⟩ : ∃ strict, decodeCmd w = exchangeInstr strict ∧ encodeCheck strict s = .none := by
    rcases hw with hw | ⟨hw, hr⟩
    · exact ⟨false, hw, encodeCheck_none hlen (by simp)⟩
    · exact ⟨true, hw, encodeCheck_none hlen fun _ => hr⟩
  have hpos : s.replySize ≠ 0 := fun h => by simp [h] at hlo
  obtain ⟨m, len, hrequest, hcount⟩ := run_request hinv hp hw hcheck hpos hhi hin
  obtain ⟨mraw, mpay, hraw, hpay, hrun⟩ := run_reply (run_inv hrequest hinv) rfl rfl hlo hreply rfl
  obtain ⟨hbytes, hpayload⟩ := loadEntry_reply hinv.params (hreply.trans_le hhi) hraw hpay
  refine ⟨_, (run_add hrequest).trans hrun, rfl, rfl, rfl, rfl, rfl, rfl, rfl, hcount, rfl, rfl, rfl, rfl, hbytes, ?_⟩
  rintro b0 b1 pay rfl
  have hb0 : mraw.load (entryOffset .rxraw 0) = b0 := hraw.1 0 (by simp)
  have hb1 : mraw.load (entryOffset .rxraw 1) = b1 := hraw.1 1 (by simp)
  refine ⟨by rw [hb0, hb1], fun k hk => ?_⟩
  have hk2 : 2 + k < (b0 :: b1 :: pay).length := by
    simp only [List.length_cons]
    omega
  exact (hpayload k hk2).trans (by simp [Nat.add_comm 2 k])

end Sys2Proof.Machine
end

section
/-! SUPPORT. The reset values of 10 section 8 as the host reads them, and the statements of 70_reset_and_hazards.md
settled: O47, O48. -/

namespace Sys2Proof.Machine

/-- STATUS reads 0 when its five fields hold their reset values (10 section 8). -/
theorem status_eq_zero {s : State} (hp : s.phase = .idle) (he : s.err = .none) (hl : s.lastop = 0)
    (hd : s.dropped = false) : s.status = 0 := by
  rw [State.status, State.busy, hp, he, hl, hd]
  decide

/-- Every register but REPLY_SIZE reads 0 after power-on (10 section 8): STATUS from its fields, CMD always, the
others as their own field holds 0. -/
theorem readReg_powerOn {r : Reg} (p : Params) (draw : Memory) (hr : r ≠ .replySize) :
    readReg r (State.powerOn p draw) = 0 := by
  cases r with
  | replySize => exact absurd rfl hr
  | status => exact status_eq_zero rfl rfl rfl rfl
  | _ => rfl

/-- Settles O47: the step is `resetBlock`, which names every register and keeps the rest. -/
theorem resetSetsEveryRegister : Obligations.ResetSetsEveryRegister := fun _ _ hi => step_reset hi

/-- Settles O48: power-on sets the phase and REPLY_SIZE, and takes its buffers from the draw. -/
theorem powerOnRegisterValues : Obligations.PowerOnRegisterValues := fun p draw =>
  ⟨rfl, rfl, fun _ hr => readReg_powerOn p draw hr, fun _ _ => rfl⟩

end Sys2Proof.Machine
end
